-- ==== Sys2Proof/Word.lean ====
section
/-!
DEFINITION. The word of the machine (spec/00_scope.md R6, R9).
-/

namespace Sys2Proof

/-- One word: an element of the instruction stream, a stack slot, an ALU operand or result.
It is read as a signed integer everywhere (R9); `BitVec.toInt` is that reading.
PRESUMED (notes/assumptions/13): the reading is two's complement, which the spec itself marks as
general knowledge. -/
abbrev Word := BitVec 32

end Sys2Proof
end

