-- ==== Sys2Proof/Syntax.lean ====
section
/-!
DEFINITION. The instruction set: the closed set of seven instructions (spec/00_scope.md R2,
spec/30_encoding.md R86).
-/

namespace Sys2Proof

/-- One constructor per row of the opcode table. The argument of a format `I` instruction is its
whole operand word (R84); a format `Z` instruction has none. -/
inductive Instr where
  /-- `CONST c`: push the literal (R140). -/
  | const (c : Word)
  /-- `VAR n`: push a copy of the value `n` slots below the top (R141). -/
  | var (n : Word)
  /-- `ADD` (R160). -/
  | add
  /-- `SUB` (R161). -/
  | sub
  /-- `MUL` (R162). -/
  | mul
  /-- `POP` (R180). -/
  | pop
  /-- `SWAP` (R181). -/
  | swap
deriving DecidableEq, Repr

end Sys2Proof
end

