-- ==== Sys2Proof/WellFormed.lean ====
section
/-!
DEFINITION. Which terms and which word sequences are instructions.
The checks on words are written from the table of R86 on their own, not from the decoder, so that
the two can be held against each other.
-/

namespace Sys2Proof

/-- How many operand words an opcode word is followed by, `none` for an illegal opcode word: "a
property of the opcode alone (table-driven)" (R85, R86, R87). -/
def operandWords (w : Word) : Option Nat :=
  if w = 0 ∨ w = 1 then some 1
  else if w = 2 ∨ w = 3 ∨ w = 4 ∨ w = 5 ∨ w = 6 then some 0
  else none

/-- A sequence of words is exactly one instruction: its first word is a legal opcode word, and
as many words follow as that opcode takes (R80, R83, R85). -/
def wellFormedWords : List Word → Bool
  | [] => false
  | w :: operands => operandWords w == some operands.length

/-- Every term of `Instr` is a well-formed instruction: an operand word may hold any of its `2 ^ 32`
values (R82, R84), and there is no other field. So no term is ill-formed, and a value that an
instruction faults on (a negative VAR offset, R206) is still an instruction. -/
def Instr.wellFormed : Instr → Bool
  | .const _ => true
  | .var _ => true
  | .add => true
  | .sub => true
  | .mul => true
  | .pop => true
  | .swap => true

end Sys2Proof
end

