-- ==== Sys2Proof/Decode.lean ====
section
/-!
DEFINITION. The decoder of spec/30_encoding.md R90, and the encoder of the table of R86.
The code port moves whole words and has no byte order (R54), so the decoder reads words.
-/

namespace Sys2Proof

/-- What an opcode word decodes to (R90). -/
inductive Decoded where
  /-- One of the seven instructions, its operand word included. -/
  | instr (i : Instr)
  /-- An opcode of arity 1 with no operand word after it (R89). -/
  | truncated (opcode : Word)
  /-- An opcode word that is none of the seven (R87). -/
  | illegal (opcode : Word)
deriving DecidableEq, Repr

/-- An instruction of format `I`: it takes the word after the opcode word, if there is one. -/
def decodeImmediate (mk : Word → Instr) (w : Word) : Option Word → Decoded
  | some imm => .instr (mk imm)
  | none => .truncated w

/-- R90, on the opcode word and the word after it (`none` when `p + 1 >= L`). The match is on the
whole opcode word, with no mask (R83). -/
def decode (w : Word) (after : Option Word) : Decoded :=
  if w = 0 then decodeImmediate .const w after
  else if w = 1 then decodeImmediate .var w after
  else if w = 2 then .instr .add
  else if w = 3 then .instr .sub
  else if w = 4 then .instr .mul
  else if w = 5 then .instr .pop
  else if w = 6 then .instr .swap
  else .illegal w

/-- `decode(code, L, p)` of R90; `none` when `p` is no index of the stream. It reads `code[p]` and
`code[p+1]` and nothing else. -/
def decodeAt (code : List Word) (p : Nat) : Option Decoded :=
  match code[p]? with
  | none => none
  | some w => some (decode w code[p + 1]?)

/-- The length of an instruction in words (R80, R85, R90). -/
def Instr.length : Instr → Nat
  | .const _ => 2
  | .var _ => 2
  | .add => 1
  | .sub => 1
  | .mul => 1
  | .pop => 1
  | .swap => 1

/-- The words of an instruction, from the table of R86. -/
def encode : Instr → List Word
  | .const c => [0x00000000#32, c]
  | .var n => [0x00000001#32, n]
  | .add => [0x00000002#32]
  | .sub => [0x00000003#32]
  | .mul => [0x00000004#32]
  | .pop => [0x00000005#32]
  | .swap => [0x00000006#32]

/-- "Assembly is the concatenation of the words of the instructions in order" (R91). -/
def assemble (is : List Instr) : List Word :=
  is.flatMap encode

/-- Read one more instruction in front of those read so far; nothing where it did not decode. -/
def Decoded.prepend : Decoded → Option (List Instr) → Option (List Instr)
  | .instr i, some is => some (i :: is)
  | .instr _, none => none
  | .truncated _, _ => none
  | .illegal _, _ => none

/-- The instructions of a whole stream, found "only by decoding from index 0 forward" (R82, R90);
`none` when an illegal or truncated instruction is met. An opcode of arity 1 takes the next word
with it, every other opcode leaves it to be the next opcode (R85). -/
def disassemble : List Word → Option (List Instr)
  | [] => some []
  | [w] => (decode w none).prepend (some [])
  | w :: v :: rest =>
    if operandWords w = some 1 then (decode w (some v)).prepend (disassemble rest)
    else (decode w (some v)).prepend (disassemble (v :: rest))

/-- Word `k` of an instruction whose bits are `w`: bits `32 k + 31 .. 32 k`, as the opcode table
numbers them, with every bit from `nbits` up 0. -/
def tableWord (nbits w k : Nat) : Word :=
  BitVec.ofNat 32 ((w % 2 ^ nbits) >>> (32 * k))

/-- The instruction the decoder reads from a row of the opcode table with bits `w`. -/
def decodeTableWord (nbits w : Nat) : Option Instr :=
  match decode (tableWord nbits w 0) (some (tableWord nbits w 1)) with
  | .instr i => some i
  | .truncated _ => none
  | .illegal _ => none

end Sys2Proof
end

