-- ==== Sys2Proof/Config.lean ====
section
/-!
DEFINITION. The parameters of an implementation (spec/00_scope.md R6).
The stack capacity itself is a field of the state, because a run is a function of the stream and
of the capacity (R124); this file gives its default and the bounds of both parameters.
-/

namespace Sys2Proof.Config

/-- `MAXLEN`, the longest stream the core accepts, in words (R6, R33). -/
abbrev maxLen : Nat := 2 ^ 31 - 1

/-- The default of `CAP`, "capacity 1000 in the reference" (R6, R24). -/
abbrev defaultCap : Nat := 1000

/-- The largest `CAP` a model takes (R6); the smallest is 1. -/
abbrev maxCap : Nat := 2 ^ 31 - 1

end Sys2Proof.Config
end

