-- ==== Sys2Proof/Machine/State.lean ====
section
/-!
DEFINITION. The state of the core (spec/10_state.md) as plain data, its reset value, and the ways a
step can end.
-/

namespace Sys2Proof.Machine

/-- One word-addressed space (R50). It is dense: its words stand in a row with no gaps, so equal
spaces are equal lists. An index past them holds no value. -/
abbrev Memory := List Word

/-- The canonical form of a space with room for `limit` words. -/
abbrev Memory.wf (limit : Nat) (m : Memory) : Prop := m.length ≤ limit

/-- The three legal values of the `status` output (R30). The reserved code 3 is never produced and
so is no value here. -/
inductive Status where
  /-- An invocation is in progress. -/
  | running
  /-- The stream was exhausted and the result was read. -/
  | halted
  /-- A fault was raised. -/
  | faulted
deriving DecidableEq, Repr

/-- The fault record, the tagged union of R32: a field that a kind does not have is not there. -/
inductive FaultRecord where
  /-- Code 1 (R201). -/
  | illegalInstruction (opcode : Word) (position : Nat)
  /-- Code 2 (R202). -/
  | stackOverflow (position : Nat)
  /-- Code 3 (R203). -/
  | stackUnderflow (position : Nat)
  /-- Code 4 (R204). -/
  | truncatedInstruction (opcode : Word) (position : Nat)
  /-- Code 5 (R206). -/
  | invalidOffset (offset : Word) (position : Nat)
deriving DecidableEq, Repr

/-- The whole state: the tuple of 10_state.md section 1, the parameters of the invocation, and the
`start` input with the stream behind it. -/
structure State where
  /-- `CAP`, the capacity of the evaluation stack in slots (R6, R24); nothing writes it. -/
  cap : Nat
  /-- The instruction stream bound at reset (R27, R35, R240); its length is `L`, the input `len`
  (R33). No instruction writes it. -/
  code : Memory
  /-- The live slots of the evaluation stack, the top first (R24, R25). The stack pointer is one
  less than their number (R23), see `State.sp`; a dead slot holds no value (R26). -/
  stack : Memory
  /-- The program counter, a word index into the stream (R21). -/
  pc : Nat
  /-- R30. -/
  status : Status
  /-- R31; valid exactly when `status` is `halted`. -/
  result : Word
  /-- R32; `none` is `fault.kind = 0`. -/
  fault : Option FaultRecord
  /-- The `start` input (R34): `some code` when the environment has asserted it, with `code` the
  stream it has put behind the code port (R242). -/
  start : Option Memory
deriving DecidableEq, Repr

/-- The state right after reset (R37), with the default capacity and, since a stream is supplied
from outside (R27), the empty one.
DESIGN CHOICE (notes/assumptions/6): `result` is 0, where the spec says unspecified. -/
def State.reset : State where
  cap := Config.defaultCap
  code := []
  stack := []
  pc := 0
  status := .running
  result := 0
  fault := none
  start := none

/-- What stops the machine without a next state: nothing. Every fault of the spec is TAKEN: it
latches the fault record and `status` and so gives a next state (R207), and a machine whose run has
ended keeps its state (R110). See notes/assumptions/8. -/
inductive Fault : Type
deriving DecidableEq, Repr

/-- Why an input has no meaning. -/
inductive Refusal where
  /-- An instruction whose meaning is not written yet. Raised by no arm: all seven are modelled. Safe. -/
  | notModelled (mnemonic : String)
  /-- `start` was asserted with a stream of more than `MAXLEN` words, "outside the core's contract"
  (R33). Raised by the reset step. Safe. -/
  | streamTooLong
deriving DecidableEq, Repr

/-- What a step, or the meaning of an instruction, answers. -/
abbrev StepOutcome := Host.Outcome State Fault Refusal

end Sys2Proof.Machine
end

