-- ==== Sys2Proof/Machine/Ops.lean ====
section
/-!
DEFINITION. The named operations over the state: the stack pointer and the stack, the program
counter, taking a fault, and reset.
-/

namespace Sys2Proof.Machine

/-- `H`, the number of live slots (R23). -/
def State.height (s : State) : Nat := s.stack.length

/-- The stack pointer: the index of the top live slot, `-1` when the stack is empty (R23). -/
def State.sp (s : State) : Int := (s.height : Int) - 1

/-- `L`, the length of the stream (R33). -/
def State.len (s : State) : Nat := s.code.length

/-- The slot `S[i]`, counted from the base slot 0 (R24); `none` for a dead slot and for an index
that is no slot (R26). -/
def State.slot (s : State) (i : Int) : Option Word :=
  if 0 ≤ i then s.stack.reverse[i.toNat]? else none

/-- `S[sp - n]`, `n` slots below the top; `none` exactly when `n > sp` (R52, R141). -/
def State.atDepth (s : State) (n : Nat) : Option Word := s.stack[n]?

/-- There is no free slot for a push: `sp + 1 >= CAP` (R202). -/
def State.full (s : State) : Bool := decide (s.cap ≤ s.height)

/-- `S[sp+1] <- v; sp <- sp + 1`. -/
def State.put (v : Word) (s : State) : State := { s with stack := v :: s.stack }

/-- `sp <- sp - n`: the top `n` slots become dead (R26). -/
def State.lower (n : Nat) (s : State) : State := { s with stack := s.stack.drop n }

/-- The net change of the program counter by a step that completes (R22, R119). -/
def State.advance (n : Nat) (s : State) : State := { s with pc := s.pc + n }

/-- TAKING A FAULT, `raise K(fields)` (R207): latch the record, set `status`, change nothing else.
There is no handler, no saved program counter but the record's position, and no return (R210). -/
def State.raise (r : FaultRecord) (s : State) : State :=
  { s with fault := some r, status := .faulted }

/-- The fault as a step's outcome. -/
def takeFault (r : FaultRecord) (s : State) : StepOutcome := .next (s.raise r)

/-- The state of R37 for an invocation with this capacity and this stream. -/
def State.invocation (cap : Nat) (code : Memory) : State :=
  { State.reset with cap := cap, code := code }

/-- Reset (R240): every register takes its reset value whatever it held (R38), the stream is bound,
and the assertion of `start` is used up. The capacity is fixed in hardware (R243). -/
def State.invoke (code : Memory) (s : State) : State := State.invocation s.cap code

end Sys2Proof.Machine
end

