-- ==== Sys2Proof/Machine/Operands.lean ====
section
/-!
DEFINITION. The operand forms: every addressing mode of R142, and the operands taken from the top
of the stack.
-/

namespace Sys2Proof.Machine

/-- Immediate: the index in `CODE` of the operand word of the instruction at `pc` (R84, R142). -/
def State.immediateIndex (s : State) : Nat := s.pc + 1

/-- Push: the next free slot (R142). -/
def State.pushIndex (s : State) : Int := s.sp + 1

/-- Top (R142). -/
def State.topIndex (s : State) : Int := s.sp

/-- Second-from-top (R142). -/
def State.secondIndex (s : State) : Int := s.sp - 1

/-- Stack-pointer-relative with an immediate depth (R142). -/
def State.depthIndex (n : Int) (s : State) : Int := s.sp - n

/-- The operand of POP: `some s'` with the top slot given up, unread (R180); `none` when the stack
is empty. -/
def State.dropOne (s : State) : Option State :=
  match s.stack with
  | [] => none
  | _ :: _ => some (s.lower 1)

/-- "pop b,a": the left operand `a = S[sp-1]`, the right operand `b = S[sp]`, and the state with both
given up (R163); `none` when there are fewer than two values (R203). -/
def State.takeTwo (s : State) : Option (Word × Word × State) :=
  match s.stack with
  | b :: a :: _ => some (a, b, s.lower 2)
  | [_] => none
  | [] => none

end Sys2Proof.Machine
end

