-- ==== Sys2Proof/Machine/Alu.lean ====
section
/-!
DEFINITION. The 32-bit signed ALU and its three instructions (spec/42_alu.md). An operation converts
its operands to integers, computes exactly and narrows once, at the end (R164).
-/

namespace Sys2Proof.Machine

/-- `wrap32` (R10): the word whose signed value is the exact integer modulo `2 ^ 32`. -/
def wrap32 (z : Int) : Word := BitVec.ofInt 32 z

/-- The exact sum, wrapped (R160). -/
def aluAdd (a b : Word) : Word := wrap32 (a.toInt + b.toInt)

/-- The exact difference, left minus right, wrapped (R161). -/
def aluSub (a b : Word) : Word := wrap32 (a.toInt - b.toInt)

/-- The exact product, wrapped (R162). -/
def aluMul (a b : Word) : Word := wrap32 (a.toInt * b.toInt)

/-- "pop b,a; push op a b" (R163): the result lands in the slot of the left operand. There is no
stack overflow to check, the height drops by one. -/
def binary (op : Word → Word → Word) (s : State) : StepOutcome :=
  match s.takeTwo with
  | none => takeFault (.stackUnderflow s.pc) s
  | some (a, b, s') => .next ((s'.put (op a b)).advance 1)

/-- `ADD` (R160). -/
def execAdd (s : State) : StepOutcome := binary aluAdd s

/-- `SUB` (R161). -/
def execSub (s : State) : StepOutcome := binary aluSub s

/-- `MUL` (R162). -/
def execMul (s : State) : StepOutcome := binary aluMul s

end Sys2Proof.Machine
end

