-- ==== Sys2Proof/Machine/Push.lean ====
section
/-!
DEFINITION. CONST and VAR (spec/41_push.md). Both are reached with their operand word fetched, so
the check for a missing one is the fetch's (`Machine/Cycle.lean`), as the order of R208 has it.
-/

namespace Sys2Proof.Machine

/-- The write of CONST and of VAR: into the next free slot, or StackOverflow when there is none
(R202); the step's net advance is 2 (R119). -/
def pushValue (v : Word) (s : State) : StepOutcome :=
  if s.full then takeFault (.stackOverflow s.pc) s
  else .next ((s.put v).advance 2)

/-- `CONST c` (R140). -/
def execConst (c : Word) (s : State) : StepOutcome := pushValue c s

/-- `VAR n` (R141): the offset is read as signed (R206); the slot is read before the push. -/
def execVar (n : Word) (s : State) : StepOutcome :=
  if n.toInt < 0 then takeFault (.invalidOffset n s.pc) s
  else
    match s.atDepth n.toInt.toNat with
    | none => takeFault (.stackUnderflow s.pc) s
    | some v => pushValue v s

end Sys2Proof.Machine
end

