-- ==== Sys2Proof/Machine/StackManip.lean ====
section
/-!
DEFINITION. POP and SWAP (spec/43_stack_manip.md).
-/

namespace Sys2Proof.Machine

/-- `POP` (R180). -/
def execPop (s : State) : StepOutcome :=
  match s.dropOne with
  | none => takeFault (.stackUnderflow s.pc) s
  | some s' => .next (s'.advance 1)

/-- `SWAP` (R181): both reads come before either write. -/
def execSwap (s : State) : StepOutcome :=
  match s.takeTwo with
  | none => takeFault (.stackUnderflow s.pc) s
  | some (a, b, s') => .next (((s'.put b).put a).advance 1)

end Sys2Proof.Machine
end

