-- ==== Sys2Proof/Machine/Dispatch.lean ====
section
/-! DEFINITION. The dispatch of a decoded instruction to its meaning (R114): one arm per instruction. -/

namespace Sys2Proof.Machine

def exec (i : Instr) (s : State) : Host.Outcome State Fault Refusal :=
  match i with
  | .const c => Sys2Proof.Machine.execConst c s
  | .var n => Sys2Proof.Machine.execVar n s
  | .add => Sys2Proof.Machine.execAdd s
  | .sub => Sys2Proof.Machine.execSub s
  | .mul => Sys2Proof.Machine.execMul s
  | .pop => Sys2Proof.Machine.execPop s
  | .swap => Sys2Proof.Machine.execSwap s

end Sys2Proof.Machine
end

