-- ==== Sys2Proof/Machine/Cycle.lean ====
section
/-!
DEFINITION. The machine cycle (spec/40_fetch_dispatch.md): fetch, decode and dispatch, the halt step,
the reset step, and what a machine does whose run has ended.
-/

namespace Sys2Proof.Machine

/-- The halt step (R116), taken when `pc = L`: the top of the stack is the result, and an empty
stack is StackUnderflow at position `L` (R203 (e)). -/
def haltStep (s : State) : StepOutcome :=
  match s.atDepth 0 with
  | none => takeFault (.stackUnderflow s.len) s
  | some v => .next { s with result := v, status := .halted }

/-- A step of a run in progress (R111): the word at `pc` is fetched and decoded, with the word after
it where the opcode takes one (R112, R113). A fetch or decode failure comes before every check of
an instruction (R208). -/
def runningStep (s : State) : StepOutcome :=
  match decodeAt s.code s.pc with
  | none => haltStep s
  | some (.illegal w) => takeFault (.illegalInstruction w s.pc) s
  | some (.truncated w) => takeFault (.truncatedInstruction w s.pc) s
  | some (.instr i) => exec i s

/-- No step is enabled and "the state does not change until the next reset" (R110).
DESIGN CHOICE (notes/assumptions/9): the outcome is that same state. -/
def idleStep (s : State) : StepOutcome := .next s

/-- Reset, by an asserted `start` (R240); a stream outside the contract has no meaning (R33). -/
def resetStep (code : Memory) (s : State) : StepOutcome :=
  if code.length ≤ Config.maxLen then .next (s.invoke code)
  else .refused .streamTooLong

/-- One transition of the block. `start` is looked at first, since reset "may be applied in any
state" and abandons a run in progress (R241; DESIGN CHOICE, notes/assumptions/10); a step is
enabled exactly when `status` is `running` (R110). -/
def cycle (s : State) : StepOutcome :=
  match s.start with
  | some code => resetStep code s
  | none =>
    match s.status with
    | .running => runningStep s
    | .halted => idleStep s
    | .faulted => idleStep s

/-- The stream with the words `ws` at index `p`, every other word as it was; a stream that does not
reach `p` is first filled up with zero words. -/
def patch (code : Memory) (p : Nat) (ws : List Word) : Memory :=
  code.take p ++ List.replicate (p - code.length) 0 ++ ws ++ code.drop (p + ws.length)

end Sys2Proof.Machine
end

