-- ==== Sys2Proof/Machine/Step.lean ====
section
/-! DEFINITION. The step of the machine, and how the host places one instruction to be run next. -/

namespace Sys2Proof.Machine

/-- The transition function of R110. -/
def step (s : State) : Host.Outcome State Fault Refusal := cycle s

/-- `s` with the instruction whose bits are `w` (numbered as the opcode table numbers them) at the
program counter, and a run in progress (RUNNING, so `fault.kind` 0, R32, and no reset asserted), so
that the next step runs it. It stands for the loader, which is outside the core
(R5; notes/assumptions/12). -/
def State.withFetchWord (s : State) (nbits w : Nat) : State :=
  { s with
    code := patch s.code s.pc [tableWord nbits w 0, tableWord nbits w 1]
    status := .running
    fault := none
    start := none }

end Sys2Proof.Machine
end

