-- ==== Sys2Proof/Machine/Flags.lean ====
section
/-!
DEFINITION. The core has no flags, condition codes or predicates (R28): nothing records that a
result wrapped. What it has is the coded outputs of R30 to R33, computed here from the state at the
widths the spec gives them.
-/

namespace Sys2Proof.Machine

/-- The code of `status` (R30). -/
def Status.code : Status → BitVec 2
  | .running => 0
  | .halted => 1
  | .faulted => 2

/-- The fault code (R200). -/
def FaultRecord.kind : FaultRecord → BitVec 3
  | .illegalInstruction _ _ => 1
  | .stackOverflow _ => 2
  | .stackUnderflow _ => 3
  | .truncatedInstruction _ _ => 4
  | .invalidOffset _ _ => 5

/-- The stream index the fault is attributed to (R205). -/
def FaultRecord.position : FaultRecord → Nat
  | .illegalInstruction _ p => p
  | .stackOverflow p => p
  | .stackUnderflow p => p
  | .truncatedInstruction _ p => p
  | .invalidOffset _ p => p

/-- The `opcode` or `offset` field; kinds 2 and 3 have none (R32). -/
def FaultRecord.info : FaultRecord → Option Word
  | .illegalInstruction w _ => some w
  | .stackOverflow _ => none
  | .stackUnderflow _ => none
  | .truncatedInstruction w _ => some w
  | .invalidOffset n _ => some n

/-- The 2-bit output `status` (R30). -/
def State.statusOutput (s : State) : BitVec 2 := s.status.code

/-- The 3-bit output `fault.kind`, 0 when there is no fault (R32). -/
def State.faultKind (s : State) : BitVec 3 :=
  match s.fault with
  | none => 0
  | some r => r.kind

/-- The 32-bit output `fault.position`, where it is valid (R32). -/
def State.faultPosition (s : State) : Option (BitVec 32) :=
  s.fault.map fun r => BitVec.ofNat 32 r.position

/-- The 32-bit output `fault.info`, where the record has it (R32). -/
def State.faultInfo (s : State) : Option Word :=
  s.fault.bind FaultRecord.info

/-- The program counter at its register's width (R21). -/
def State.pcRegister (s : State) : BitVec 32 := BitVec.ofNat 32 s.pc

/-- The stack pointer at its register's width, signed (R23). -/
def State.spRegister (s : State) : BitVec 32 := BitVec.ofInt 32 s.sp

/-- The input `len` (R33). -/
def State.lenInput (s : State) : BitVec 32 := BitVec.ofNat 32 s.len

end Sys2Proof.Machine
end

