-- ==== Sys2Proof/Machine/Execute.lean ====
section
/-!
DEFINITION. The environment of the core (R7, R244) and a whole run as a function (R124).
-/

namespace Sys2Proof.Machine

/-- The environment's one move: it puts a stream behind the code port and asserts `start` (R242). -/
def State.assertStart (code : Memory) (s : State) : State := { s with start := some code }

/-- What the environment reads (R8, R117): `result` only when `status` is `halted`, the fault record
only when it is `faulted`. -/
inductive RunOutcome where
  /-- Nothing to read: the run has not ended (or, in a state that no run reaches, there is no fault
  record to read). -/
  | noOutcome
  /-- `Ok(v)`: it ended normally. -/
  | value (v : Word)
  /-- `Error(r)`: it ended with a fault. -/
  | failure (r : FaultRecord)
deriving DecidableEq, Repr

/-- The outcome the environment reads from a state. -/
def State.outcome (s : State) : RunOutcome :=
  match s.status, s.fault with
  | .running, _ => .noOutcome
  | .halted, _ => .value s.result
  | .faulted, some r => .failure r
  | .faulted, none => .noOutcome

/-- `k` steps. A machine whose run has ended keeps its state, so this is the guarded loop of R124. -/
def runFor : Nat → State → StepOutcome
  | 0, s => .next s
  | k + 1, s =>
    match step s with
    | .next t => runFor k t
    | .fault r => .fault r
    | .refused r => .refused r

/-- `execute(code, L, CAP)` (R124): at most `L + 1` steps from reset (R122). -/
def execute (cap : Nat) (code : Memory) : RunOutcome :=
  match runFor (code.length + 1) (State.invocation cap code) with
  | .next s => s.outcome
  | .fault _ => .noOutcome
  | .refused _ => .noOutcome

end Sys2Proof.Machine
end

