-- ==== Sys2Proof/Safety.lean ====
section
/-!
DEFINITION. The terms in which claims about the machine are made: instruction boundaries, the invariant
of step boundaries (R39), the fault that is due in a step (R208), the height each instruction needs
(R182), and the one-pass check of a stream (R247). The last three are written from the spec's tables
and not from the meanings of `Machine/`, so that the two can be held against each other.
-/

namespace Sys2Proof.Safety

open Sys2Proof.Machine

/-- `Boundary code p`: the chain of instructions that starts at position 0 reaches `p` (R39 (c),
R90). -/
inductive Boundary (code : Memory) : Nat → Prop where
  | start : Boundary code 0
  | next {p : Nat} {i : Instr} (before : Boundary code p)
      (here : decodeAt code p = some (.instr i)) : Boundary code (p + i.length)

/-- The contract of an invocation: `0 <= L <= MAXLEN` and `1 <= CAP` within its range (R6, R33). -/
def InContract (cap : Nat) (code : Memory) : Prop :=
  Memory.wf Config.maxLen code ∧ 1 ≤ cap ∧ cap ≤ Config.maxCap

/-- The invariant of step boundaries, R39 (a) to (e), with the contract it presumes. The last two
fields also say that there is a fault record exactly when `status` is `faulted` (R32). -/
structure StepInvariant (s : State) : Prop where
  /-- The premise of R39. -/
  contract : InContract s.cap s.code
  /-- (a) -/
  pc_le : s.pc ≤ s.len
  /-- (b) -/
  sp_range : -1 ≤ s.sp ∧ s.sp ≤ (s.cap : Int) - 1
  /-- (c) -/
  boundary : s.status = .running → Boundary s.code s.pc
  /-- (d) -/
  halted : s.status = .halted → s.pc = s.len ∧ s.slot s.sp = some s.result
  /-- (e) -/
  faulted : s.status = .faulted → ∃ r, s.fault = some r ∧ r.position = s.pc
  /-- `fault.kind` is 0 "whenever `status != FAULTED`" (R32). -/
  no_fault : s.status ≠ .faulted → s.fault = none

/-- A step is enabled: the machine is inside a run (R110), and no reset is asserted, which would come
first (DESIGN CHOICE, notes/assumptions/10). -/
def Enabled (s : State) : Prop := s.start = none ∧ s.status = .running

/-- Nothing but the stack and the program counter differs. -/
def SameButStackAndPc (s t : State) : Prop := t = { s with stack := t.stack, pc := t.pc }

/-- The fault due in a step of a run in progress, by the fixed order of R208 over the conditions of
R201 to R206, with `p = pc`: the first condition that holds. -/
def faultDue (s : State) : Option FaultRecord :=
  match s.code[s.pc]? with
  | none => if s.sp < 0 then some (.stackUnderflow s.len) else none
  | some w =>
    let imm := s.code[s.pc + 1]?
    let n := (imm.getD 0).toInt
    -- 1. opcode dispatch
    if w.toInt < 0 ∨ 6 < w.toInt then some (.illegalInstruction w s.pc)
    -- 2. operand fetch, CONST and VAR only
    else if w.toInt ≤ 1 ∧ s.len ≤ s.pc + 1 then some (.truncatedInstruction w s.pc)
    -- 3. operand validity, VAR only
    else if w.toInt = 1 ∧ n < 0 then some (.invalidOffset (imm.getD 0) s.pc)
    -- 4. stack reads
    else if w.toInt = 1 ∧ s.sp < n then some (.stackUnderflow s.pc)
    else if (2 ≤ w.toInt ∧ w.toInt ≤ 4 ∨ w.toInt = 6) ∧ s.sp < 1 then some (.stackUnderflow s.pc)
    else if w.toInt = 5 ∧ s.sp < 0 then some (.stackUnderflow s.pc)
    -- 5. stack write, CONST and VAR only
    else if w.toInt ≤ 1 ∧ (s.cap : Int) ≤ s.sp + 1 then some (.stackOverflow s.pc)
    else none

/-- The column "Needs `H` in" of R182: the heights with which an instruction completes. -/
def needs (cap : Nat) : Instr → Nat → Prop
  | .const _, h => h + 1 ≤ cap
  | .var n, h => 0 ≤ n.toInt ∧ n.toInt + 1 ≤ h ∧ h + 1 ≤ cap
  | .add, h => 2 ≤ h
  | .sub, h => 2 ≤ h
  | .mul, h => 2 ≤ h
  | .pop, h => 1 ≤ h
  | .swap, h => 2 ≤ h

/-- The column "Stack effect" of R86: the change of the height. -/
def stackEffect : Instr → Int
  | .const _ => 1
  | .var _ => 1
  | .add => -1
  | .sub => -1
  | .mul => -1
  | .pop => -1
  | .swap => 0

/-- The column "Slots written" of R182, for the height before the instruction. -/
def writes : Instr → Int → List Int
  | .const _, h => [h]
  | .var _, h => [h]
  | .add, h => [h - 2]
  | .sub, h => [h - 2]
  | .mul, h => [h - 2]
  | .pop, _ => []
  | .swap, h => [h - 1, h - 2]

/-- The fault of an instruction at position `p` with `h` values on the stack, from the height alone
(R182, R208); `none` when its needs are met. -/
def heightFault (cap : Nat) (i : Instr) (h p : Nat) : Option FaultRecord :=
  match i with
  | .const _ => if cap ≤ h then some (.stackOverflow p) else none
  | .var n =>
    if n.toInt < 0 then some (.invalidOffset n p)
    else if (h : Int) ≤ n.toInt then some (.stackUnderflow p)
    else if cap ≤ h then some (.stackOverflow p)
    else none
  | .add => if h < 2 then some (.stackUnderflow p) else none
  | .sub => if h < 2 then some (.stackUnderflow p) else none
  | .mul => if h < 2 then some (.stackUnderflow p) else none
  | .pop => if h < 1 then some (.stackUnderflow p) else none
  | .swap => if h < 2 then some (.stackUnderflow p) else none

/-- The counter of R247 after an instruction. -/
def heightAfter (i : Instr) (h : Nat) : Nat := (h + stackEffect i).toNat

/-- What the one pass finds at one opcode word: a fault, or the counter for the rest. -/
def checkOne (cap : Nat) (w : Word) (after : Option Word) (h p : Nat) : FaultRecord ⊕ Nat :=
  match decode w after with
  | .illegal op => .inl (.illegalInstruction op p)
  | .truncated op => .inl (.truncatedInstruction op p)
  | .instr i =>
    match heightFault cap i h p with
    | some r => .inl r
    | none => .inr (heightAfter i h)

/-- The end of the pass at position `p`: it succeeds with at least one value left (R247). -/
def checkEnd (h p : Nat) : Option FaultRecord :=
  if h = 0 then some (.stackUnderflow p) else none

/-- The one forward pass of R247 over the words from position `p` on, with the counter at `h`:
`none` when it succeeds, else the fault that the run ends with. It keeps no stack. -/
def checkFrom (cap : Nat) : List Word → Nat → Nat → Option FaultRecord
  | [], h, p => checkEnd h p
  | [w], h, p =>
    match checkOne cap w none h p with
    | .inl r => some r
    | .inr h' => checkEnd h' (p + 1)
  | w :: v :: rest, h, p =>
    match checkOne cap w (some v) h p with
    | .inl r => some r
    | .inr h' =>
      if operandWords w = some 1 then checkFrom cap rest h' (p + 2)
      else checkFrom cap (v :: rest) h' (p + 1)

/-- The check of a whole stream before it is run (R247). -/
def check (cap : Nat) (code : Memory) : Option FaultRecord := checkFrom cap code 0 0

/-- A safe run: it ends normally, with a value (R117). -/
def SafeRun (cap : Nat) (code : Memory) : Prop := ∃ v, execute cap code = .value v

end Sys2Proof.Safety
end

