-- ==== Sys2Proof/Certificates/Slice0/Obligations.lean ====
section
/-!
DEFINITION. The statements about the machine, for the provers. A fault is written out as the record
and the status it latches, every other field as it was (R207). `Enabled s` says that a step is
enabled: `status` is `running` (R110), and no reset is asserted, which would come first
(notes/assumptions/10).
-/

section
open Sys2Proof Sys2Proof.Machine Sys2Proof.Safety

/-! ### Reset, the invariant, and the cycle -/

/-- The reset state, of this or any other capacity and stream in the contract, meets the invariant
(R37, R39). The zero that `result` holds there is the model's choice (notes/assumptions/6), and the
statement does not rest on it. -/
def Obligations.ResetStateMeetsInvariant : Prop :=
  StepInvariant State.reset ∧ ∀ cap code, InContract cap code → StepInvariant (State.invocation cap code)

/-- R39: the invariant holds at reset and at every later step boundary, (a) to (e), and a `status`
that is not RUNNING never changes until the next reset, (f). -/
def Obligations.EveryStepKeepsInvariant : Prop :=
  (∀ cap code, InContract cap code → StepInvariant (State.invocation cap code)) ∧
  ∀ s t, StepInvariant s → step s = .next t →
    StepInvariant t ∧ (s.status ≠ .running → s.start = none → t.status = s.status)

/-- An asserted `start` takes the machine, from any state, to the reset state with the stream bound
(R240), and the first step after it fetches at position 0, whatever stands there, or is the halt
step. That the reset comes before the next instruction of a RUNNING machine, and that it uses the
assertion up (`t.start = none`), are the model's choice (notes/assumptions/10). -/
def Obligations.StartTakesTheResetState : Prop :=
  ∀ (s : State) code, Memory.wf Config.maxLen code →
    ∃ t, step (s.assertStart code) = .next t ∧
      t.pc = 0 ∧ t.sp = -1 ∧ t.status = .running ∧ t.faultKind = 0 ∧ (∀ j, t.slot j = none) ∧
      t.code = code ∧ t.cap = s.cap ∧ t.start = none ∧
      (∀ i, decodeAt code 0 = some (.instr i) → step t = exec i t) ∧
      (∀ w, decodeAt code 0 = some (.illegal w) →
        step t = .next { t with status := .faulted, fault := some (.illegalInstruction w 0) }) ∧
      (∀ w, decodeAt code 0 = some (.truncated w) →
        step t = .next { t with status := .faulted, fault := some (.truncatedInstruction w 0) }) ∧
      (code = [] → step t = haltStep t)

/-- Reset may be applied in any state and abandons a run with no fault record; every reset of one core
with one stream has the same outcome, a stream that is too long included; and reset is the only way
into RUNNING and the only way out of HALTED and FAULTED. The last two clauses are R241's own words.
The first two also rest on two choices of the model: that a pending `start` is taken before the next
instruction (notes/assumptions/10), and, where the second has no bound on the stream, that a reset
with too long a stream is refused (notes/assumptions/11). -/
def Obligations.ResetIsTheOnlyWayOutAndForgetsAll : Prop :=
  (∀ (s : State) code, Memory.wf Config.maxLen code →
    ∃ t, step (s.assertStart code) = .next t ∧ t.status = .running ∧ t.fault = none) ∧
  (∀ (s s' : State) code, s.cap = s'.cap → step (s.assertStart code) = step (s'.assertStart code)) ∧
  (∀ s t, step s = .next t → t.status = .running → s.status ≠ .running → s.start ≠ none) ∧
  (∀ s t, step s = .next t → s.status ≠ .running → t.status ≠ s.status → s.start ≠ none)

/-- A stream longer than MAXLEN has no meaning: R33 calls it outside the contract, and U16 refuses it.
That the refusal is the reset's is the model's choice (notes/assumptions/11), and so is that the reset
comes before the next instruction (notes/assumptions/10). -/
def Obligations.TooLongStreamIsRefused : Prop :=
  ∀ s code, s.start = some code → Config.maxLen < code.length → step s = .refused .streamTooLong

/-- When the words at the program counter decode to an instruction, the step is that instruction's
meaning, with nothing around it. -/
def Obligations.StepRunsTheDecodedInstruction : Prop :=
  ∀ s i, Enabled s → decodeAt s.code s.pc = some (.instr i) → step s = exec i s

/-- An instruction placed by its bits, as the opcode table numbers them, is what the next step runs. How
it comes to stand there is the model's stand-in for the loader (notes/assumptions/12). -/
def Obligations.PlacedInstructionRunsNext : Prop :=
  ∀ (s : State) nbits w i, decodeTableWord nbits w = some i →
    step (s.withFetchWord nbits w) = exec i (s.withFetchWord nbits w)

/-- R111: the dispatch of a step, case by case on the opcode word. -/
def Obligations.StepDispatchesOnTheOpcodeWord : Prop :=
  ∀ s, Enabled s →
    (s.len ≤ s.pc → step s = haltStep s) ∧
    ∀ w, s.code[s.pc]? = some w →
      (w.toInt = 0 → ∀ c, s.code[s.pc + 1]? = some c → step s = exec (.const c) s) ∧
      (w.toInt = 0 → s.code[s.pc + 1]? = none →
        step s = .next { s with status := .faulted, fault := some (.truncatedInstruction 0 s.pc) }) ∧
      (w.toInt = 1 → ∀ n, s.code[s.pc + 1]? = some n → step s = exec (.var n) s) ∧
      (w.toInt = 1 → s.code[s.pc + 1]? = none →
        step s = .next { s with status := .faulted, fault := some (.truncatedInstruction 1 s.pc) }) ∧
      (w.toInt = 2 → step s = exec .add s) ∧
      (w.toInt = 3 → step s = exec .sub s) ∧
      (w.toInt = 4 → step s = exec .mul s) ∧
      (w.toInt = 5 → step s = exec .pop s) ∧
      (w.toInt = 6 → step s = exec .swap s) ∧
      (w.toInt < 0 ∨ 6 < w.toInt →
        step s = .next { s with status := .faulted, fault := some (.illegalInstruction w s.pc) })

/-- R116 (and R118): at `pc = L` an empty stack is StackUnderflow at position `L`; else the top is the
result, whatever lies below it, and nothing but `result` and `status` is written. An empty stream
faults at once. -/
def Obligations.HaltStepReturnsTheTopOrFaults : Prop :=
  (∀ s, Enabled s → s.pc = s.len → s.sp < 0 →
    step s = .next { s with status := .faulted, fault := some (.stackUnderflow s.len) }) ∧
  (∀ s, Enabled s → s.pc = s.len → 0 ≤ s.sp →
    ∃ v, s.slot s.sp = some v ∧ step s = .next { s with result := v, status := .halted }) ∧
  (∀ cap, step (State.invocation cap []) = .next { State.invocation cap [] with
    status := .faulted, fault := some (.stackUnderflow 0) })

/-- A machine whose run has ended, and that nobody starts again, keeps its whole state (R110). That
the step then answers that same state is the model's choice (notes/assumptions/9). -/
def Obligations.EndedRunKeepsItsState : Prop :=
  ∀ s, s.status ≠ .running → s.start = none → step s = .next s

/-! ### The instructions -/

/-- R140. -/
def Obligations.ConstPushesItsLiteral : Prop :=
  (∀ c, encode (.const c) = [0x00000000#32, c] ∧
    decode 0x00000000#32 (some c) = .instr (.const c)) ∧
  (∀ s, Enabled s → s.code[s.pc]? = some 0x00000000#32 → s.len ≤ s.pc + 1 →
    step s = .next { s with status := .faulted, fault := some (.truncatedInstruction 0 s.pc) }) ∧
  (∀ s c, (s.cap : Int) ≤ s.sp + 1 →
    exec (.const c) s = .next { s with status := .faulted, fault := some (.stackOverflow s.pc) }) ∧
  (∀ s c, s.sp + 1 < (s.cap : Int) →
    exec (.const c) s = .next { s with stack := c :: s.stack, pc := s.pc + 2 })

/-- R141, its faults in the order they are checked. -/
def Obligations.VarPushesTheSlotAtItsDepth : Prop :=
  (∀ n, encode (.var n) = [0x00000001#32, n] ∧
    decode 0x00000001#32 (some n) = .instr (.var n)) ∧
  (∀ s, Enabled s → s.code[s.pc]? = some 0x00000001#32 → s.len ≤ s.pc + 1 →
    step s = .next { s with status := .faulted, fault := some (.truncatedInstruction 1 s.pc) }) ∧
  (∀ s n, n.toInt < 0 →
    exec (.var n) s = .next { s with status := .faulted, fault := some (.invalidOffset n s.pc) }) ∧
  (∀ s n, 0 ≤ n.toInt → s.sp < n.toInt →
    exec (.var n) s = .next { s with status := .faulted, fault := some (.stackUnderflow s.pc) }) ∧
  (∀ s n, 0 ≤ n.toInt → n.toInt ≤ s.sp → (s.cap : Int) ≤ s.sp + 1 →
    exec (.var n) s = .next { s with status := .faulted, fault := some (.stackOverflow s.pc) }) ∧
  (∀ s n, 0 ≤ n.toInt → n.toInt ≤ s.sp → s.sp + 1 < (s.cap : Int) →
    ∃ v, s.slot (s.sp - n.toInt) = some v ∧
      exec (.var n) s = .next { s with stack := v :: s.stack, pc := s.pc + 2 })

/-- R160. -/
def Obligations.AddReplacesTheTopTwoByTheirSum : Prop :=
  (encode .add = [0x00000002#32] ∧ ∀ after, decode 0x00000002#32 after = .instr .add) ∧
  (∀ s, s.sp < 1 →
    exec .add s = .next { s with status := .faulted, fault := some (.stackUnderflow s.pc) }) ∧
  (∀ s, 1 ≤ s.sp → ∃ a b, s.slot (s.sp - 1) = some a ∧ s.slot s.sp = some b ∧
    exec .add s = .next { s with
      stack := wrap32 (a.toInt + b.toInt) :: s.stack.drop 2, pc := s.pc + 1 })

/-- R161: left minus right, the first pushed minus the second pushed. -/
def Obligations.SubReplacesTheTopTwoByTheirDifference : Prop :=
  (encode .sub = [0x00000003#32] ∧ ∀ after, decode 0x00000003#32 after = .instr .sub) ∧
  (∀ s, s.sp < 1 →
    exec .sub s = .next { s with status := .faulted, fault := some (.stackUnderflow s.pc) }) ∧
  (∀ s, 1 ≤ s.sp → ∃ a b, s.slot (s.sp - 1) = some a ∧ s.slot s.sp = some b ∧
    exec .sub s = .next { s with
      stack := wrap32 (a.toInt - b.toInt) :: s.stack.drop 2, pc := s.pc + 1 })

/-- R162. -/
def Obligations.MulReplacesTheTopTwoByTheirProduct : Prop :=
  (encode .mul = [0x00000004#32] ∧ ∀ after, decode 0x00000004#32 after = .instr .mul) ∧
  (∀ s, s.sp < 1 →
    exec .mul s = .next { s with status := .faulted, fault := some (.stackUnderflow s.pc) }) ∧
  (∀ s, 1 ≤ s.sp → ∃ a b, s.slot (s.sp - 1) = some a ∧ s.slot s.sp = some b ∧
    exec .mul s = .next { s with
      stack := wrap32 (a.toInt * b.toInt) :: s.stack.drop 2, pc := s.pc + 1 })

/-- R180. -/
def Obligations.PopDiscardsTheTop : Prop :=
  (encode .pop = [0x00000005#32] ∧ ∀ after, decode 0x00000005#32 after = .instr .pop) ∧
  (∀ s, s.sp < 0 →
    exec .pop s = .next { s with status := .faulted, fault := some (.stackUnderflow s.pc) }) ∧
  (∀ s, 0 ≤ s.sp →
    exec .pop s = .next { s with stack := s.stack.drop 1, pc := s.pc + 1 })

/-- R181. -/
def Obligations.SwapExchangesTheTopTwo : Prop :=
  (encode .swap = [0x00000006#32] ∧ ∀ after, decode 0x00000006#32 after = .instr .swap) ∧
  (∀ s, s.sp < 1 →
    exec .swap s = .next { s with status := .faulted, fault := some (.stackUnderflow s.pc) }) ∧
  (∀ s, 1 ≤ s.sp → ∃ a b, s.slot (s.sp - 1) = some a ∧ s.slot s.sp = some b ∧
    exec .swap s = .next { s with stack := a :: b :: s.stack.drop 2, pc := s.pc + 1 })

/-! ### Frames, by the slots of the stack -/

/-- CONST and VAR that complete write the next free slot and no other; the value is the literal, or
the slot at the depth counted from the top before the push. -/
def Obligations.PushWritesOnlyTheNextFreeSlot : Prop :=
  (∀ s c, needs s.cap (.const c) s.height → ∃ t, exec (.const c) s = .next t ∧
    SameButStackAndPc s t ∧ t.sp = s.sp + 1 ∧ t.slot s.pushIndex = some c ∧
    ∀ j, j ≠ s.pushIndex → t.slot j = s.slot j) ∧
  (∀ s n, needs s.cap (.var n) s.height → ∃ t, exec (.var n) s = .next t ∧
    SameButStackAndPc s t ∧ t.sp = s.sp + 1 ∧
    t.slot s.pushIndex = s.slot (s.depthIndex n.toInt) ∧ (t.slot s.pushIndex).isSome ∧
    ∀ j, j ≠ s.pushIndex → t.slot j = s.slot j)

/-- ADD, SUB and MUL that complete write the second-from-top slot, lower the stack pointer by one,
which makes the former top slot dead, and leave every other slot as it was. -/
def Obligations.BinaryWritesOnlyTheSecondFromTop : Prop :=
  ∀ i f, (i, f) ∈ [(Instr.add, aluAdd), (Instr.sub, aluSub), (Instr.mul, aluMul)] →
    ∀ s, 2 ≤ s.height → ∃ t a b, exec i s = .next t ∧
      SameButStackAndPc s t ∧ t.sp = s.sp - 1 ∧
      s.slot s.secondIndex = some a ∧ s.slot s.topIndex = some b ∧
      t.slot s.secondIndex = some (f a b) ∧ t.slot s.topIndex = none ∧
      ∀ j, j ≠ s.secondIndex → j ≠ s.topIndex → t.slot j = s.slot j

/-- POP that completes writes no slot: the top becomes dead, every other slot is as it was. SWAP that
completes writes the top two slots and no other and leaves the stack pointer alone. -/
def Obligations.PopWritesNothingAndSwapOnlyTheTopTwo : Prop :=
  (∀ s, 1 ≤ s.height → ∃ t, exec .pop s = .next t ∧
    SameButStackAndPc s t ∧ t.sp = s.sp - 1 ∧ t.slot s.topIndex = none ∧
    ∀ j, j ≠ s.topIndex → t.slot j = s.slot j) ∧
  (∀ s, 2 ≤ s.height → ∃ t, exec .swap s = .next t ∧
    SameButStackAndPc s t ∧ t.sp = s.sp ∧
    t.slot s.topIndex = s.slot s.secondIndex ∧ t.slot s.secondIndex = s.slot s.topIndex ∧
    (∀ j, j ≠ s.secondIndex → j ≠ s.topIndex → t.slot j = s.slot j))

/-- R182: an instruction completes exactly with the heights its row needs, changes the height by its
stack effect, and leaves every live slot but those its row writes; the halt step likewise, which
writes no slot. -/
def Obligations.HeightsDecideCompletion : Prop :=
  (∀ i s, needs s.cap i s.height → ∃ t, exec i s = .next t ∧
    SameButStackAndPc s t ∧ (t.height : Int) = s.height + stackEffect i ∧
    t.pc = s.pc + i.length ∧
    ∀ j, j ≤ t.sp → j ∉ writes i s.height → t.slot j = s.slot j) ∧
  (∀ i s, ¬ needs s.cap i s.height → ∃ r, r.position = s.pc ∧
    exec i s = .next { s with status := .faulted, fault := some r }) ∧
  (∀ s, Enabled s → s.len ≤ s.pc → ∃ t, step s = .next t ∧ t.stack = s.stack ∧
    (t.status = .halted ↔ 1 ≤ s.height) ∧ (t.status = .faulted ↔ s.height = 0))

/-- No instruction writes the stream, the capacity, the `start` input or `result`; outside a reset, no
step does but the halt step, which writes `result` with the top slot. -/
def Obligations.OnlyTheHaltStepWritesTheResult : Prop :=
  (∀ i s t, exec i s = .next t →
    t.code = s.code ∧ t.cap = s.cap ∧ t.start = s.start ∧ t.result = s.result) ∧
  (∀ s t, s.start = none → step s = .next t →
    t.code = s.code ∧ t.cap = s.cap ∧ t.start = none ∧
    (t.status = .halted → s.status = .running → s.slot s.sp = some t.result) ∧
    (t.result ≠ s.result → s.status = .running ∧ s.len ≤ s.pc ∧ t.status = .halted))

/-! ### Faults -/

/-- R207: a step that raises a fault does nothing but latch the record and set `status`; the program
counter stays where it was, which is the position recorded. -/
def Obligations.FaultStepChangesNothingElse : Prop :=
  ∀ s t, Enabled s → s.pc ≤ s.len → step s = .next t → t.status = .faulted →
    ∃ r, t = { s with status := .faulted, fault := some r } ∧ r.position = s.pc ∧
      t.faultKind = r.kind ∧ t.faultInfo = r.info ∧
      t.faultPosition = some (BitVec.ofNat 32 s.pc)

/-- R208: a step faults exactly when one of the conditions holds, with the first one in the fixed
order. -/
def Obligations.FirstFaultInTheFixedOrderIsRaised : Prop :=
  ∀ s, Enabled s →
    (∀ r, faultDue s = some r → step s = .next { s with status := .faulted, fault := some r }) ∧
    (faultDue s = none → ∃ t, step s = .next t ∧ t.status ≠ .faulted)

/-- Every step of a machine that is not being reset answers a next state, and so does every
instruction in every state. For a machine that is RUNNING, and for instructions, this is the spec's
(R110, R122). For one that is HALTED or FAULTED no step is enabled (R110), and that the step answers
the same state there is the model's choice (notes/assumptions/9). -/
def Obligations.StepAlwaysAnswersANextState : Prop :=
  (∀ s, s.start = none → ∃ t, step s = .next t) ∧
  (∀ i s, ∃ t, exec i s = .next t ∧ (t.status = s.status ∨ t.status = .faulted))

/-- The codes of the five kinds (R200); in a state that meets the invariant `fault.kind` is 0 exactly
when `status` is not FAULTED (R32); and the codes of `status` are 0 for RUNNING, 1 for HALTED and 2
for FAULTED, never the reserved 3 (R30). -/
def Obligations.FaultAndStatusCodesAreTheTables : Prop :=
  (∀ w p, (FaultRecord.illegalInstruction w p).kind = 1#3) ∧
  (∀ p, (FaultRecord.stackOverflow p).kind = 2#3) ∧
  (∀ p, (FaultRecord.stackUnderflow p).kind = 3#3) ∧
  (∀ w p, (FaultRecord.truncatedInstruction w p).kind = 4#3) ∧
  (∀ n p, (FaultRecord.invalidOffset n p).kind = 5#3) ∧
  (∀ s, StepInvariant s → (s.faultKind = 0#3 ↔ s.status ≠ .faulted)) ∧
  (∀ s : State, (s.status = .running → s.statusOutput = 0#2) ∧
    (s.status = .halted → s.statusOutput = 1#2) ∧
    (s.status = .faulted → s.statusOutput = 2#2) ∧ s.statusOutput ≠ 3#2)

/-! ### The program counter -/

/-- R119: a step that completes moves the program counter by 2 or by 1, as the opcode says, and never
past `L`; a fault step and the halt step leave it. -/
def Obligations.ProgramCounterIsSequential : Prop :=
  ∀ s t, Enabled s → s.pc ≤ s.len → step s = .next t →
    (t.status = .running → t.pc ≤ t.len ∧ ∃ w, s.code[s.pc]? = some w ∧
      (w.toInt = 0 ∨ w.toInt = 1 → t.pc = s.pc + 2) ∧
      (2 ≤ w.toInt ∧ w.toInt ≤ 6 → t.pc = s.pc + 1) ∧ 0 ≤ w.toInt ∧ w.toInt ≤ 6) ∧
    (t.status = .faulted → t.pc = s.pc) ∧
    (t.status = .halted → s.pc = s.len ∧ t.pc = s.len)

/-- The registers fit the widths the spec gives them: under the invariant nothing is lost by holding
the program counter, the stack pointer, `len` and a fault's position as numbers (R21, R23, R33,
R205). -/
def Obligations.RegistersFitTheirWidths : Prop :=
  ∀ s, StepInvariant s → s.pcRegister.toNat = s.pc ∧ s.spRegister.toInt = s.sp ∧
    s.lenInput.toNat = s.len ∧ (s.status = .faulted → s.faultPosition = some s.pcRegister)

/-! ### Encoding -/

/-- Words written out from the table of R86 decode to the instructions they stand for, and words next
to them do not (R83). -/
def Obligations.WrittenOutWordsDecode : Prop :=
  decode 0b00000000000000000000000000000000#32 (some 0xFFFFFFFF#32) = .instr (.const (-1#32)) ∧
  decode 0b00000000000000000000000000000001#32 (some 0b10#32) = .instr (.var 2#32) ∧
  decode 0b00000000000000000000000000000010#32 none = .instr .add ∧
  decode 0b00000000000000000000000000000011#32 none = .instr .sub ∧
  decode 0b00000000000000000000000000000100#32 none = .instr .mul ∧
  decode 0b00000000000000000000000000000101#32 none = .instr .pop ∧
  decode 0b00000000000000000000000000000110#32 none = .instr .swap ∧
  decode 0x80000002#32 none = .illegal 0x80000002#32 ∧
  decode 0x00000100#32 (some 0#32) = .illegal 0x00000100#32

/-- Decoding inverts encoding, wherever in a stream the instruction stands, for every instruction and
every operand. -/
def Obligations.DecodeInvertsEncode : Prop :=
  ∀ i before after, i.wellFormed = true →
    decodeAt (before ++ encode i ++ after) before.length = some (.instr i) ∧
    (encode i).length = i.length ∧ wellFormedWords (encode i) = true

/-- Encoding inverts decoding: what decodes to an instruction is that instruction's words, so each
word has one meaning. -/
def Obligations.EncodeInvertsDecode : Prop :=
  (∀ code p i, decodeAt code p = some (.instr i) →
    (code.drop p).take i.length = encode i) ∧
  (∀ ws, wellFormedWords ws = true → ∃ i, encode i = ws)

/-- A whole stream is read back from its words: the instruction boundaries are found by decoding from
index 0 forward (R90, R91). -/
def Obligations.DisassembleInvertsAssemble : Prop :=
  (∀ is, disassemble (assemble is) = some is) ∧
  (∀ ws is, disassemble ws = some is → assemble is = ws)

/-- R87: the illegal opcode words are exactly those whose signed value is not in `0 .. 6`, whatever
stands after them; fetching one as an opcode raises IllegalInstruction and ends the run, and an
operand word is never tested. -/
def Obligations.IllegalWordsAreAllOthers : Prop :=
  (∀ w after, decode w after = .illegal w ↔ (w.toInt < 0 ∨ 6 < w.toInt)) ∧
  (∀ s w, Enabled s → s.code[s.pc]? = some w → (w.toInt < 0 ∨ 6 < w.toInt) →
    step s = .next { s with status := .faulted, fault := some (.illegalInstruction w s.pc) }) ∧
  (∀ imm, decode 0 (some imm) = .instr (.const imm) ∧ decode 1 (some imm) = .instr (.var imm))

/-! ### Arithmetic -/

/-- R10: `wrap32 z` is the unique word in the signed range congruent to `z` modulo `2 ^ 32`. -/
def Obligations.WrapIsTheUniqueResidue : Prop :=
  ∀ z : Int,
    (-2 ^ 31 ≤ (wrap32 z).toInt ∧ (wrap32 z).toInt ≤ 2 ^ 31 - 1) ∧
    (wrap32 z).toInt % 2 ^ 32 = z % 2 ^ 32 ∧
    (wrap32 z).toInt = (z + 2 ^ 31) % 2 ^ 32 - 2 ^ 31 ∧
    ∀ r : Int, -2 ^ 31 ≤ r → r ≤ 2 ^ 31 - 1 → r % 2 ^ 32 = z % 2 ^ 32 → r = (wrap32 z).toInt

/-- Overflow wraps: a sum or difference comes out exact or off by `2 ^ 32` once, a product keeps its
residue. The bound of a difference is one more than R165 gives for ADD and SUB together, whose
bound is that of a sum (notes/assumptions/16). And overflow is no error: with any two operands on top
of the stack ADD, SUB and MUL complete, with the wrapped result on top and `status` and `fault` as
they were (R165, R211). -/
def Obligations.OverflowWraps : Prop :=
  ∀ a b : Word,
    (-2 ^ 32 ≤ a.toInt + b.toInt ∧ a.toInt + b.toInt ≤ 2 ^ 32 - 2) ∧
    (-2 ^ 32 + 1 ≤ a.toInt - b.toInt ∧ a.toInt - b.toInt ≤ 2 ^ 32 - 1) ∧
    (∃ k : Int, (k = 0 ∨ k = 2 ^ 32 ∨ k = -2 ^ 32) ∧ (aluAdd a b).toInt = a.toInt + b.toInt + k) ∧
    (∃ k : Int, (k = 0 ∨ k = 2 ^ 32 ∨ k = -2 ^ 32) ∧ (aluSub a b).toInt = a.toInt - b.toInt + k) ∧
    (-(2 ^ 62 - 2 ^ 31) ≤ a.toInt * b.toInt ∧ a.toInt * b.toInt ≤ 2 ^ 62) ∧
    (aluMul a b).toInt % 2 ^ 32 = (a.toInt * b.toInt) % 2 ^ 32 ∧
    ∀ s : State, s.slot (s.sp - 1) = some a → s.slot s.sp = some b →
      ∀ i f, (i, f) ∈ [(Instr.add, aluAdd), (Instr.sub, aluSub), (Instr.mul, aluMul)] →
        ∃ t, exec i s = .next t ∧ t.slot t.sp = some (f a b) ∧
          t.status = s.status ∧ t.fault = s.fault

/-- R166: the machine operations are those of the integers modulo `2 ^ 32`, (a) to (g). -/
def Obligations.AluIsTheRingModuloTwoToThe32 : Prop :=
  ∀ x y z : Word,
    (aluAdd x y = aluAdd y x ∧ aluMul x y = aluMul y x) ∧
    (aluAdd (aluAdd x y) z = aluAdd x (aluAdd y z) ∧
      aluMul (aluMul x y) z = aluMul x (aluMul y z)) ∧
    (aluMul x (aluAdd y z) = aluAdd (aluMul x y) (aluMul x z)) ∧
    (aluAdd x 0 = x ∧ aluMul x 1 = x ∧ aluMul x 0 = 0 ∧ aluSub x x = 0 ∧ aluSub x 0 = x) ∧
    (aluSub x y = aluAdd x (aluSub 0 y) ∧ aluAdd (aluSub x y) y = x ∧
      aluSub (aluAdd x y) y = x) ∧
    (aluSub 0 x = x ↔ (x.toInt = 0 ∨ x.toInt = -2 ^ 31)) ∧
    aluMul x (-1) = aluSub 0 x

/-- The result bits are the same under the unsigned reading of the operands (R162, R167). -/
def Obligations.AluBitsDoNotDependOnSignedness : Prop :=
  ∀ a b : Word, aluAdd a b = BitVec.ofNat 32 (a.toNat + b.toNat) ∧
    aluMul a b = BitVec.ofNat 32 (a.toNat * b.toNat) ∧
    aluSub a b = BitVec.ofNat 32 (a.toNat + (2 ^ 32 - b.toNat))

/-! ### Sequences and whole runs -/

/-- SWAP is self-inverse; VAR 0 then POP, and CONST then POP, restore the live stack (95_test_vectors.md
section 4). -/
def Obligations.SwapTwiceAndPushPopRestoreTheStack : Prop :=
  (∀ s, 2 ≤ s.height → ∃ t, exec .swap s = .next t ∧
    exec .swap t = .next { s with pc := s.pc + 2 }) ∧
  (∀ s, 1 ≤ s.height → s.height < s.cap → ∃ t, exec (.var 0) s = .next t ∧
    exec .pop t = .next { s with pc := s.pc + 3 }) ∧
  (∀ s c, s.height < s.cap → ∃ t, exec (.const c) s = .next t ∧
    exec .pop t = .next { s with pc := s.pc + 3 })

/-- R122: every instruction step moves the program counter on, up to `L` at most; from any state that
meets the invariant a run ends within the words left plus one steps, so within `L + 1` from reset;
and `execute` is total. -/
def Obligations.EveryRunEndsWithinItsBound : Prop :=
  (∀ s t, StepInvariant s → Enabled s → step s = .next t → t.status = .running →
    s.pc + 1 ≤ t.pc ∧ t.pc ≤ t.len) ∧
  (∀ s, StepInvariant s → Enabled s → ∃ t, runFor (s.len - s.pc + 1) s = .next t ∧ t.status ≠ .running) ∧
  (∀ cap code, InContract cap code → execute cap code ≠ .noOutcome)

/-- R247: the one forward pass over the stream, which keeps a height and no stack, succeeds exactly
when the run ends HALTED, and fails at the same position for the same reason as the run faults. -/
def Obligations.OnePassCheckPredictsEveryRun : Prop :=
  ∀ cap code, InContract cap code →
    (check cap code = none ↔ SafeRun cap code) ∧
    (∀ r, check cap code = some r ↔ execute cap code = .failure r)

/-- A run that ends with a value ends with that value under every larger capacity: the capacity matters
only through StackOverflow (95_test_vectors.md section 4). -/
def Obligations.LargerCapacityKeepsTheResult : Prop :=
  ∀ cap cap' code v, InContract cap code → cap ≤ cap' → execute cap code = .value v →
    execute cap' code = .value v

end
end

