-- ==== Sys2Proof/Laws/State.lean ====
section
/-!
SUPPORT. One lemma per field per update of the state, each true by `rfl`.
-/

namespace Sys2Proof.Machine

/-! ### `State.put` -/

@[simp] theorem State.put_cap (v : Word) (s : State) : (s.put v).cap = s.cap := rfl
@[simp] theorem State.put_code (v : Word) (s : State) : (s.put v).code = s.code := rfl
@[simp] theorem State.put_stack (v : Word) (s : State) : (s.put v).stack = v :: s.stack := rfl
@[simp] theorem State.put_pc (v : Word) (s : State) : (s.put v).pc = s.pc := rfl
@[simp] theorem State.put_status (v : Word) (s : State) : (s.put v).status = s.status := rfl
@[simp] theorem State.put_result (v : Word) (s : State) : (s.put v).result = s.result := rfl
@[simp] theorem State.put_fault (v : Word) (s : State) : (s.put v).fault = s.fault := rfl
@[simp] theorem State.put_start (v : Word) (s : State) : (s.put v).start = s.start := rfl

/-! ### `State.lower` -/

@[simp] theorem State.lower_cap (n : Nat) (s : State) : (s.lower n).cap = s.cap := rfl
@[simp] theorem State.lower_code (n : Nat) (s : State) : (s.lower n).code = s.code := rfl
@[simp] theorem State.lower_stack (n : Nat) (s : State) : (s.lower n).stack = s.stack.drop n := rfl
@[simp] theorem State.lower_pc (n : Nat) (s : State) : (s.lower n).pc = s.pc := rfl
@[simp] theorem State.lower_status (n : Nat) (s : State) : (s.lower n).status = s.status := rfl
@[simp] theorem State.lower_result (n : Nat) (s : State) : (s.lower n).result = s.result := rfl
@[simp] theorem State.lower_fault (n : Nat) (s : State) : (s.lower n).fault = s.fault := rfl
@[simp] theorem State.lower_start (n : Nat) (s : State) : (s.lower n).start = s.start := rfl

/-! ### `State.advance` -/

@[simp] theorem State.advance_cap (n : Nat) (s : State) : (s.advance n).cap = s.cap := rfl
@[simp] theorem State.advance_code (n : Nat) (s : State) : (s.advance n).code = s.code := rfl
@[simp] theorem State.advance_stack (n : Nat) (s : State) : (s.advance n).stack = s.stack := rfl
@[simp] theorem State.advance_pc (n : Nat) (s : State) : (s.advance n).pc = s.pc + n := rfl
@[simp] theorem State.advance_status (n : Nat) (s : State) : (s.advance n).status = s.status := rfl
@[simp] theorem State.advance_result (n : Nat) (s : State) : (s.advance n).result = s.result := rfl
@[simp] theorem State.advance_fault (n : Nat) (s : State) : (s.advance n).fault = s.fault := rfl
@[simp] theorem State.advance_start (n : Nat) (s : State) : (s.advance n).start = s.start := rfl

/-! ### `State.raise` -/

@[simp] theorem State.raise_cap (r : FaultRecord) (s : State) : (s.raise r).cap = s.cap := rfl
@[simp] theorem State.raise_code (r : FaultRecord) (s : State) : (s.raise r).code = s.code := rfl
@[simp] theorem State.raise_stack (r : FaultRecord) (s : State) : (s.raise r).stack = s.stack := rfl
@[simp] theorem State.raise_pc (r : FaultRecord) (s : State) : (s.raise r).pc = s.pc := rfl
@[simp] theorem State.raise_status (r : FaultRecord) (s : State) : (s.raise r).status = .faulted := rfl
@[simp] theorem State.raise_result (r : FaultRecord) (s : State) : (s.raise r).result = s.result := rfl
@[simp] theorem State.raise_fault (r : FaultRecord) (s : State) : (s.raise r).fault = some r := rfl
@[simp] theorem State.raise_start (r : FaultRecord) (s : State) : (s.raise r).start = s.start := rfl

/-! ### `State.assertStart` -/

@[simp] theorem State.assertStart_cap (code : Memory) (s : State) : (s.assertStart code).cap = s.cap := rfl
@[simp] theorem State.assertStart_code (code : Memory) (s : State) : (s.assertStart code).code = s.code := rfl
@[simp] theorem State.assertStart_stack (code : Memory) (s : State) : (s.assertStart code).stack = s.stack := rfl
@[simp] theorem State.assertStart_pc (code : Memory) (s : State) : (s.assertStart code).pc = s.pc := rfl
@[simp] theorem State.assertStart_status (code : Memory) (s : State) : (s.assertStart code).status = s.status := rfl
@[simp] theorem State.assertStart_result (code : Memory) (s : State) : (s.assertStart code).result = s.result := rfl
@[simp] theorem State.assertStart_fault (code : Memory) (s : State) : (s.assertStart code).fault = s.fault := rfl
@[simp] theorem State.assertStart_start (code : Memory) (s : State) : (s.assertStart code).start = some code := rfl

/-! ### `State.invocation` and `State.invoke` -/

@[simp] theorem State.invocation_cap (cap : Nat) (code : Memory) : (State.invocation cap code).cap = cap := rfl
@[simp] theorem State.invocation_code (cap : Nat) (code : Memory) : (State.invocation cap code).code = code := rfl
@[simp] theorem State.invocation_stack (cap : Nat) (code : Memory) : (State.invocation cap code).stack = [] := rfl
@[simp] theorem State.invocation_pc (cap : Nat) (code : Memory) : (State.invocation cap code).pc = 0 := rfl
@[simp] theorem State.invocation_status (cap : Nat) (code : Memory) : (State.invocation cap code).status = .running := rfl
@[simp] theorem State.invocation_result (cap : Nat) (code : Memory) : (State.invocation cap code).result = 0 := rfl
@[simp] theorem State.invocation_fault (cap : Nat) (code : Memory) : (State.invocation cap code).fault = none := rfl
@[simp] theorem State.invocation_start (cap : Nat) (code : Memory) : (State.invocation cap code).start = none := rfl

@[simp] theorem State.invoke_eq (code : Memory) (s : State) : s.invoke code = State.invocation s.cap code := rfl

theorem State.reset_eq_invocation : State.reset = State.invocation Config.defaultCap [] := rfl

/-! ### The views of the stack and the stream -/

@[simp] theorem State.put_height (v : Word) (s : State) : (s.put v).height = s.height + 1 := rfl
@[simp] theorem State.lower_height (n : Nat) (s : State) : (s.lower n).height = s.height - n := List.length_drop
@[simp] theorem State.advance_height (n : Nat) (s : State) : (s.advance n).height = s.height := rfl
@[simp] theorem State.raise_height (r : FaultRecord) (s : State) : (s.raise r).height = s.height := rfl
@[simp] theorem State.raise_sp (r : FaultRecord) (s : State) : (s.raise r).sp = s.sp := rfl
@[simp] theorem State.raise_len (r : FaultRecord) (s : State) : (s.raise r).len = s.len := rfl
@[simp] theorem State.invocation_height (cap : Nat) (code : Memory) : (State.invocation cap code).height = 0 := rfl
@[simp] theorem State.invocation_len (cap : Nat) (code : Memory) : (State.invocation cap code).len = code.length := rfl

theorem State.sp_eq (s : State) : s.sp = (s.height : Int) - 1 := rfl
theorem State.height_eq (s : State) : s.height = s.stack.length := rfl
theorem State.len_eq (s : State) : s.len = s.code.length := rfl

end Sys2Proof.Machine
end

