-- ==== Sys2Proof/Laws/Memory.lean ====
section
/-!
SUPPORT. The two word spaces: what reading a slot gives after each stack operation, and that every
operation keeps the canonical form.
-/

namespace Sys2Proof.Machine

/-! ### The canonical form -/

theorem reset_code_wf : Memory.wf Config.maxLen State.reset.code := by decide

theorem reset_stack_wf : Memory.wf State.reset.cap State.reset.stack := by decide

theorem State.put_wf (v : Word) {s : State} (room : s.full = false) :
    Memory.wf s.cap (s.put v).stack := by
  have : ¬ s.cap ≤ s.stack.length := of_decide_eq_false room
  simp only [put_stack, Memory.wf, List.length_cons]
  omega

theorem State.lower_wf (n : Nat) {s : State} (wf : Memory.wf s.cap s.stack) :
    Memory.wf s.cap (s.lower n).stack := by
  simp only [lower_stack, Memory.wf, List.length_drop] at *
  omega

/-! ### Slots -/

theorem State.slot_of_neg {s : State} {i : Int} (h : i < 0) : s.slot i = none := by
  simp [slot, Int.not_le.mpr h]

/-- The slot `n` below the top is the one the depth reads (R142). -/
theorem State.slot_depthIndex (s : State) (n : Nat) : s.slot (s.depthIndex n) = s.atDepth n := by
  unfold slot depthIndex atDepth sp height
  by_cases h : n < s.stack.length
  · rw [if_pos (by omega), List.getElem?_reverse (by omega)]
    congr 1
    omega
  · rw [if_neg (by omega), List.getElem?_eq_none (by omega)]

/-- A slot is dead, or no slot, exactly outside `0 .. sp` (R25, R26). -/
theorem State.slot_eq_none_iff {s : State} {i : Int} : s.slot i = none ↔ i < 0 ∨ s.sp < i := by
  unfold slot sp height
  split
  · rw [List.getElem?_eq_none_iff, List.length_reverse]
    omega
  · simp
    omega

/-- A push writes the next free slot and leaves every other (R57). -/
theorem State.slot_put (v : Word) (s : State) (i : Int) :
    (s.put v).slot i = if i = s.pushIndex then some v else s.slot i := by
  unfold slot pushIndex sp height
  simp only [put_stack, List.reverse_cons]
  by_cases h : 0 ≤ i
  · simp only [if_pos h]
    split
    · subst i
      simp
    · rename_i hne
      rcases Nat.lt_or_ge i.toNat s.stack.length with hl | hl
      · rw [List.getElem?_append_left (by simpa using hl)]
      · rw [List.getElem?_eq_none (by simp; omega), List.getElem?_eq_none (by simpa using hl)]
  · simp only [if_neg h]
    split
    · omega
    · rfl

/-- Lowering the stack pointer makes slots dead and leaves every live one (R26). -/
theorem State.slot_lower (n : Nat) (s : State) (i : Int) :
    (s.lower n).slot i = if i ≤ s.sp - n then s.slot i else none := by
  unfold slot sp height
  simp only [lower_stack]
  by_cases h : 0 ≤ i
  · simp only [if_pos h, List.reverse_drop, List.getElem?_take]
    split <;> split <;> first | rfl | (exfalso; omega)
  · simp [h]

@[simp] theorem State.slot_advance (n : Nat) (s : State) (i : Int) :
    (s.advance n).slot i = s.slot i := rfl

@[simp] theorem State.slot_raise (r : FaultRecord) (s : State) (i : Int) :
    (s.raise r).slot i = s.slot i := rfl

end Sys2Proof.Machine
end

