-- ==== Sys2Proof/Laws/Ops.lean ====
section
/-!
SUPPORT. One lemma per shared operation that says everything it can do; later proofs cite these and
do not unfold the operations.
-/

namespace Sys2Proof.Machine

open Sys2Proof.Safety

/-! ### Operands -/

theorem State.full_iff {s : State} : s.full = true ↔ s.cap ≤ s.height := decide_eq_true_iff

theorem State.atDepth_eq_none_iff {s : State} {n : Nat} : s.atDepth n = none ↔ s.height ≤ n :=
  List.getElem?_eq_none_iff

theorem State.dropOne_eq_none_iff {s : State} : s.dropOne = none ↔ s.height = 0 := by
  unfold dropOne height
  split <;> simp_all

theorem State.dropOne_eq_some {s s' : State} (h : s.dropOne = some s') :
    1 ≤ s.height ∧ s' = s.lower 1 := by
  unfold dropOne at h
  split at h
  · cases h
  · next hs => exact ⟨by simp [height, hs], (Option.some.inj h).symm⟩

theorem State.takeTwo_eq_none_iff {s : State} : s.takeTwo = none ↔ s.height < 2 := by
  unfold takeTwo height
  split <;> simp_all

/-- The two operands are the slots of R163, and both are given up. -/
theorem State.takeTwo_eq_some {s s' : State} {a b : Word} (h : s.takeTwo = some (a, b, s')) :
    2 ≤ s.height ∧ s' = s.lower 2 ∧ s.atDepth 1 = some a ∧ s.atDepth 0 = some b ∧
      s.stack = b :: a :: s.stack.drop 2 := by
  unfold takeTwo at h
  split at h
  · next hs =>
    cases h
    exact ⟨by simp [height, hs], rfl, by simp [atDepth, hs], by simp [atDepth, hs], by simp [hs]⟩
  · cases h
  · cases h

/-! ### What each shared meaning can do -/

theorem pushValue_full {v : Word} {s : State} (h : s.cap ≤ s.height) :
    pushValue v s = .next (s.raise (.stackOverflow s.pc)) :=
  if_pos (State.full_iff.mpr h)

theorem pushValue_room {v : Word} {s : State} (h : s.height < s.cap) :
    pushValue v s = .next ((s.put v).advance 2) :=
  if_neg (by rw [State.full_iff]; omega)

theorem binary_short {op : Word → Word → Word} {s : State} (h : s.height < 2) :
    binary op s = .next (s.raise (.stackUnderflow s.pc)) := by
  rw [binary, State.takeTwo_eq_none_iff.mpr h]
  rfl

/-- With two values a binary operator completes, on the slots of R163. -/
theorem binary_complete {op : Word → Word → Word} {s : State} (h : 2 ≤ s.height) :
    ∃ a b, s.atDepth 1 = some a ∧ s.atDepth 0 = some b ∧
      s.stack = b :: a :: s.stack.drop 2 ∧
      binary op s = .next (((s.lower 2).put (op a b)).advance 1) := by
  rcases ht : s.takeTwo with _ | ⟨a, b, s'⟩
  · have := State.takeTwo_eq_none_iff.mp ht
    omega
  · obtain ⟨-, rfl, ha, hb, hs⟩ := State.takeTwo_eq_some ht
    exact ⟨a, b, ha, hb, hs, by rw [binary, ht]⟩

theorem execPop_empty {s : State} (h : s.height = 0) :
    execPop s = .next (s.raise (.stackUnderflow s.pc)) := by
  rw [execPop, State.dropOne_eq_none_iff.mpr h]
  rfl

theorem execPop_complete {s : State} (h : 1 ≤ s.height) :
    execPop s = .next ((s.lower 1).advance 1) := by
  rcases hd : s.dropOne with _ | s'
  · have := State.dropOne_eq_none_iff.mp hd
    omega
  · rw [execPop, hd, (State.dropOne_eq_some hd).2]

theorem execSwap_short {s : State} (h : s.height < 2) :
    execSwap s = .next (s.raise (.stackUnderflow s.pc)) := by
  rw [execSwap, State.takeTwo_eq_none_iff.mpr h]
  rfl

theorem execSwap_complete {s : State} (h : 2 ≤ s.height) :
    ∃ a b, s.atDepth 1 = some a ∧ s.atDepth 0 = some b ∧
      s.stack = b :: a :: s.stack.drop 2 ∧
      execSwap s = .next ((((s.lower 2).put b).put a).advance 1) := by
  rcases ht : s.takeTwo with _ | ⟨a, b, s'⟩
  · have := State.takeTwo_eq_none_iff.mp ht
    omega
  · obtain ⟨-, rfl, ha, hb, hs⟩ := State.takeTwo_eq_some ht
    exact ⟨a, b, ha, hb, hs, by rw [execSwap, ht]⟩

theorem execVar_negative {n : Word} {s : State} (h : n.toInt < 0) :
    execVar n s = .next (s.raise (.invalidOffset n s.pc)) :=
  if_pos h

theorem execVar_deep {n : Word} {s : State} (h0 : 0 ≤ n.toInt) (h : (s.height : Int) ≤ n.toInt) :
    execVar n s = .next (s.raise (.stackUnderflow s.pc)) := by
  rw [execVar, if_neg (by omega), State.atDepth_eq_none_iff.mpr (by omega)]
  rfl

theorem execVar_live {n : Word} {s : State} (h0 : 0 ≤ n.toInt) (h : n.toInt < s.height) :
    ∃ v, s.atDepth n.toInt.toNat = some v ∧ execVar n s = pushValue v s := by
  rcases hd : s.atDepth n.toInt.toNat with _ | v
  · have := State.atDepth_eq_none_iff.mp hd
    omega
  · exact ⟨v, rfl, by rw [execVar, if_neg (by omega), hd]⟩

theorem haltStep_empty {s : State} (h : s.height = 0) :
    haltStep s = .next (s.raise (.stackUnderflow s.len)) := by
  rw [haltStep, State.atDepth_eq_none_iff.mpr (by omega)]
  rfl

theorem haltStep_top {s : State} (h : 1 ≤ s.height) :
    ∃ v, s.atDepth 0 = some v ∧
      haltStep s = .next { s with result := v, status := .halted } := by
  rcases hd : s.atDepth 0 with _ | v
  · have := State.atDepth_eq_none_iff.mp hd
    omega
  · exact ⟨v, rfl, by rw [haltStep, hd]⟩

/-! ### What an instruction can do -/

/-- An instruction takes a fault at its own position, changing nothing else, or it completes: then
nothing but the stack and the program counter changes, and the program counter moves on by the
instruction's length. -/
theorem exec_cases (i : Instr) (s : State) :
    (∃ r, heightFault s.cap i s.height s.pc = some r ∧ exec i s = .next (s.raise r)) ∨
    (heightFault s.cap i s.height s.pc = none ∧ ∃ st : Memory, st.length = heightAfter i s.height ∧
      exec i s = .next { s with stack := st, pc := s.pc + i.length }) := by
  have two : ∀ op, (if s.height < 2 then some (FaultRecord.stackUnderflow s.pc) else none) = none →
      ∃ st : Memory, st.length = s.height - 1 ∧
        binary op s = .next { s with stack := st, pc := s.pc + 1 } := by
    intro op h
    obtain ⟨a, b, -, -, hs, he⟩ := binary_complete (op := op) (s := s) (by
      split at h
      · cases h
      · omega)
    refine ⟨op a b :: s.stack.drop 2, ?_, he⟩
    have := s.height_eq
    simp at *
    omega
  have short : ∀ r, (if s.height < 2 then some (FaultRecord.stackUnderflow s.pc) else none) = some r →
      s.height < 2 ∧ r = .stackUnderflow s.pc := by
    intro r h
    split at h
    · exact ⟨‹_›, (Option.some.inj h).symm⟩
    · cases h
  cases hf : heightFault s.cap i s.height s.pc with
  | some r =>
    refine .inl ⟨r, rfl, ?_⟩
    cases i with
    | const c =>
      simp only [heightFault] at hf
      split at hf
      · cases hf
        exact pushValue_full ‹_›
      · cases hf
    | var n =>
      simp only [heightFault] at hf
      split at hf
      · cases hf
        exact execVar_negative ‹_›
      split at hf
      · cases hf
        exact execVar_deep (by omega) ‹_›
      split at hf
      · cases hf
        obtain ⟨v, -, he⟩ := execVar_live (n := n) (s := s) (by omega) (by omega)
        exact he.trans (pushValue_full ‹_›)
      · cases hf
    | add => obtain ⟨h, rfl⟩ := short r hf; exact binary_short h
    | sub => obtain ⟨h, rfl⟩ := short r hf; exact binary_short h
    | mul => obtain ⟨h, rfl⟩ := short r hf; exact binary_short h
    | pop =>
      simp only [heightFault] at hf
      split at hf
      · cases hf
        exact execPop_empty (by omega)
      · cases hf
    | swap => obtain ⟨h, rfl⟩ := short r hf; exact execSwap_short h
  | none =>
    refine .inr ⟨rfl, ?_⟩
    cases i with
    | const c =>
      exact ⟨c :: s.stack, rfl, pushValue_room (by simpa [heightFault] using hf)⟩
    | var n =>
      simp only [heightFault] at hf
      split at hf
      · cases hf
      split at hf
      · cases hf
      split at hf
      · cases hf
      obtain ⟨v, -, he⟩ := execVar_live (n := n) (s := s) (by omega) (by omega)
      exact ⟨v :: s.stack, rfl, he.trans (pushValue_room (by omega))⟩
    | add => obtain ⟨st, hl, he⟩ := two aluAdd hf; exact ⟨st, hl.trans (by simp [heightAfter, stackEffect]; omega), he⟩
    | sub => obtain ⟨st, hl, he⟩ := two aluSub hf; exact ⟨st, hl.trans (by simp [heightAfter, stackEffect]; omega), he⟩
    | mul => obtain ⟨st, hl, he⟩ := two aluMul hf; exact ⟨st, hl.trans (by simp [heightAfter, stackEffect]; omega), he⟩
    | pop =>
      have h : 1 ≤ s.height := by
        simp only [heightFault] at hf
        split at hf
        · cases hf
        · omega
      refine ⟨s.stack.drop 1, ?_, execPop_complete h⟩
      simp [heightAfter, stackEffect, State.height_eq]
      omega
    | swap =>
      obtain ⟨a, b, -, -, hs, he⟩ := execSwap_complete (s := s) (by
        simp only [heightFault] at hf
        split at hf
        · cases hf
        · omega)
      refine ⟨a :: b :: s.stack.drop 2, ?_, he⟩
      have := congrArg List.length hs
      simp [heightAfter, stackEffect, State.height_eq] at *
      omega

/-- The position of every fault of an instruction is its own (R205). -/
theorem heightFault_position {cap h p : Nat} {i : Instr} {r : FaultRecord}
    (hf : heightFault cap i h p = some r) : r.position = p := by
  cases i <;> simp only [heightFault] at hf <;> (repeat' split at hf) <;> cases hf <;> rfl

/-- The halt step takes StackUnderflow at `L`, or reads the top. -/
theorem haltStep_cases (s : State) :
    (s.height = 0 ∧ haltStep s = .next (s.raise (.stackUnderflow s.len))) ∨
    (1 ≤ s.height ∧ ∃ v, s.slot s.sp = some v ∧
      haltStep s = .next { s with result := v, status := .halted }) := by
  rcases Nat.eq_zero_or_pos s.height with h | h
  · exact .inl ⟨h, haltStep_empty h⟩
  · obtain ⟨v, hv, he⟩ := haltStep_top h
    refine .inr ⟨h, v, ?_, he⟩
    have := s.slot_depthIndex 0
    rw [hv] at this
    simpa [State.depthIndex] using this

end Sys2Proof.Machine
end

