-- ==== Sys2Proof/Laws/PerInstr.lean ====
section
/-!
SUPPORT. Statements made for every instruction, one lemma per constructor of `Instr`.
-/

namespace Sys2Proof.Laws.EncodedLength

/-- The words of an instruction are as many as its length, and its first word says so alone (R85). -/
def Statement (i : Instr) : Prop :=
  (encode i).length = i.length ∧
    ∃ w operands, encode i = w :: operands ∧ operandWords w = some operands.length

theorem const (c : Word) : Statement (.const c) := ⟨rfl, _, _, rfl, rfl⟩
theorem var (n : Word) : Statement (.var n) := ⟨rfl, _, _, rfl, rfl⟩
theorem add : Statement .add := ⟨rfl, _, _, rfl, rfl⟩
theorem sub : Statement .sub := ⟨rfl, _, _, rfl, rfl⟩
theorem mul : Statement .mul := ⟨rfl, _, _, rfl, rfl⟩
theorem pop : Statement .pop := ⟨rfl, _, _, rfl, rfl⟩
theorem swap : Statement .swap := ⟨rfl, _, _, rfl, rfl⟩

end Sys2Proof.Laws.EncodedLength
end

