-- ==== Sys2Proof/Laws/Step.lean ====
section
/-!
SUPPORT. What the machine cycle can do: the equations of `step`, and one inversion lemma for a step of a
run in progress.
-/

namespace Sys2Proof.Machine

open Sys2Proof.Safety

theorem step_start {s : State} {code : Memory} (h : s.start = some code) :
    step s = resetStep code s := by
  rw [step, cycle, h]

theorem step_enabled {s : State} (h : Enabled s) : step s = runningStep s := by
  rw [step, cycle, h.1, h.2]

theorem step_idle {s : State} (hs : s.start = none) (h : s.status ≠ .running) : step s = .next s := by
  rw [step, cycle, hs]
  cases hst : s.status
  · exact absurd hst h
  · rfl
  · rfl

theorem resetStep_wf {s : State} {code : Memory} (h : Memory.wf Config.maxLen code) :
    resetStep code s = .next (State.invocation s.cap code) :=
  if_pos h

theorem resetStep_long {s : State} {code : Memory} (h : Config.maxLen < code.length) :
    resetStep code s = .refused .streamTooLong :=
  if_neg (by omega)

/-! ### Decoding at a position -/

theorem decodeAt_eq_none_iff {code : Memory} {p : Nat} : decodeAt code p = none ↔ code.length ≤ p := by
  unfold decodeAt
  rw [← List.getElem?_eq_none_iff]
  split <;> simp_all

/-- An instruction that decodes lies inside the stream whole, so a position never jumps past `L`
(R90). -/
theorem decodeAt_length_le {code : Memory} {p : Nat} {i : Instr}
    (h : decodeAt code p = some (.instr i)) : p + i.length ≤ code.length := by
  unfold decodeAt at h
  split at h
  · cases h
  next w hw =>
    have hp := (List.getElem?_eq_some_iff.mp hw).1
    have two : ∀ mk, decodeImmediate mk w code[p + 1]? = .instr i → p + 2 ≤ code.length := by
      intro mk hd
      rcases hc : code[p + 1]? with _ | c
      · rw [hc] at hd
        cases hd
      · exact (List.getElem?_eq_some_iff.mp hc).1
    have le2 : ∀ j : Instr, j.length ≤ 2 := fun j => by cases j <;> simp [Instr.length]
    have hd := Option.some.inj h
    unfold decode at hd
    split at hd
    · exact Nat.le_trans (Nat.add_le_add_left (le2 i) p) (two _ hd)
    split at hd
    · exact Nat.le_trans (Nat.add_le_add_left (le2 i) p) (two _ hd)
    all_goals (repeat' split at hd) <;> cases hd <;> exact hp

/-! ### A step of a run in progress -/

/-- A step of a run in progress takes a fault, changing nothing else; or it is the halt step; or it
is an instruction that completes. -/
theorem runningStep_cases (s : State) :
    (∃ r, runningStep s = .next (s.raise r) ∧ (s.pc ≤ s.len → r.position = s.pc)) ∨
    (s.len ≤ s.pc ∧ ∃ v, s.slot s.sp = some v ∧
      runningStep s = .next { s with result := v, status := .halted }) ∨
    (∃ i, decodeAt s.code s.pc = some (.instr i) ∧ heightFault s.cap i s.height s.pc = none ∧
      ∃ st : Memory, st.length = heightAfter i s.height ∧
        runningStep s = .next { s with stack := st, pc := s.pc + i.length }) := by
  unfold runningStep
  split
  · next hd =>
    have hl : s.len ≤ s.pc := decodeAt_eq_none_iff.mp hd
    rcases haltStep_cases s with ⟨-, he⟩ | ⟨-, v, hv, he⟩
    · exact .inl ⟨_, he, fun h => Nat.le_antisymm hl h⟩
    · exact .inr (.inl ⟨hl, v, hv, he⟩)
  · exact .inl ⟨_, rfl, fun _ => rfl⟩
  · exact .inl ⟨_, rfl, fun _ => rfl⟩
  · next i hd =>
    rcases exec_cases i s with ⟨r, hf, he⟩ | ⟨hf, st, hl, he⟩
    · exact .inl ⟨r, he, fun _ => heightFault_position hf⟩
    · exact .inr (.inr ⟨i, hd, hf, st, hl, he⟩)

end Sys2Proof.Machine
end

