-- ==== Sys2Proof/Tests/Slice0.lean ====
section
/-!
SUPPORT. Tests on small states, and for every statement with hypotheses a state and operands that meet
them together. The expected values are those of spec/95_test_vectors.md (the row is named), of the
table of R86, or counted by hand from the rule named.
-/

namespace Sys2Proof.Tests

open Sys2Proof.Machine Sys2Proof.Safety

/-- A run in progress, its stack written bottom first as the test vectors write it. -/
def at_ (cap : Nat) (code : List Word) (bottomFirst : List Word) (pc : Nat) : State :=
  { State.invocation cap code with stack := bottomFirst.reverse, pc := pc }

/-- The live stack, bottom first, and the program counter, of a step that did not fault. -/
def after : StepOutcome → Option (List Word × Nat)
  | .next t => if t.status = .faulted then none else some (t.stack.reverse, t.pc)
  | .fault _ => none
  | .refused _ => none

/-- The fault record that a step latched. -/
def faultOf : StepOutcome → Option FaultRecord
  | .next t => t.fault
  | .fault _ => none
  | .refused _ => none

/-! ### Words and well-formedness -/

theorem test_illformed_no_word : wellFormedWords [] = false := by decide
theorem test_illformed_opcode : wellFormedWords [7] = false := by decide
theorem test_illformed_negative_opcode : wellFormedWords [0xFFFFFFFF] = false := by decide
theorem test_illformed_operand_missing : wellFormedWords [0] = false := by decide
theorem test_illformed_operand_extra : wellFormedWords [2, 5] = false := by decide
theorem test_wellformed_const : wellFormedWords [0, 99] = true := by decide
theorem test_every_term_wellformed : (Instr.var (-1)).wellFormed = true := by decide

-- The bit patterns are the rows of opcode_table.json.
theorem test_decode_const : decode 0b00000000000000000000000000000000#32 (some 99) = .instr (.const 99) := by decide
theorem test_decode_var : decode 0b00000000000000000000000000000001#32 (some 3) = .instr (.var 3) := by decide
theorem test_decode_add : decode 0b00000000000000000000000000000010#32 none = .instr .add := by decide
theorem test_decode_sub : decode 0b00000000000000000000000000000011#32 none = .instr .sub := by decide
theorem test_decode_mul : decode 0b00000000000000000000000000000100#32 none = .instr .mul := by decide
theorem test_decode_pop : decode 0b00000000000000000000000000000101#32 none = .instr .pop := by decide
theorem test_decode_swap : decode 0b00000000000000000000000000000110#32 none = .instr .swap := by decide
theorem test_decode_truncated : decode 1 none = .truncated 1 := by decide
theorem test_decode_seven : decode 7 none = .illegal 7 := by decide
theorem test_decode_no_mask : decode 0x80000002 (some 0) = .illegal 0x80000002 := by decide
theorem test_table_word_const : decodeTableWord 64 0x00000005_00000000 = some (.const 5) := by decide
theorem test_table_word_short : decodeTableWord 32 1 = some (.var 0) := by decide
theorem test_table_word_illegal : decodeTableWord 32 7 = none := by decide
/-- The list form of R91: `[CONST,2, CONST,3, CONST,4, MUL, ADD]`. -/
theorem test_assemble :
    assemble [.const 2, .const 3, .const 4, .mul, .add] = [0, 2, 0, 3, 0, 4, 4, 2] := by decide
theorem test_disassemble_operand_like_opcode :
    disassemble [0, 6, 6] = some [.const 6, .swap] := by decide
theorem test_withFetchWord :
    step (State.reset.withFetchWord 64 0x00000007_00000000) =
      exec (.const 7) (State.reset.withFetchWord 64 0x00000007_00000000) := by rfl
theorem test_withFetchWord_keeps_the_rest :
    ((at_ 9 [0, 1, 5, 5, 0, 8] [] 2).withFetchWord 32 2).code = [0, 1, 2, 0, 0, 8] := by decide

/-! ### One step, by the vectors of section 2 -/

theorem test_const_K4 : after (step (at_ 1000 [0, 0xFFFFFFFF] [4] 0)) = some ([4, 0xFFFFFFFF], 2) := by decide
theorem test_const_H9 : faultOf (step (at_ 1 [0, 1, 0, 2] [1] 2)) = some (.stackOverflow 2) := by decide
theorem test_var_V4 : after (step (at_ 1000 [1, 2] [5, 7, 9] 0)) = some ([5, 7, 9, 5], 2) := by decide
theorem test_var_F1_underflow_before_overflow :
    faultOf (step (at_ 2 [0, 1, 0, 2, 1, 5] [1, 2] 4)) = some (.stackUnderflow 4) := by decide
theorem test_var_F3_offset_before_overflow :
    faultOf (step (at_ 1 [0, 1, 1, 0xFFFFFFFF] [1] 2)) = some (.invalidOffset 0xFFFFFFFF 2) := by decide
theorem test_var_F2_overflow : faultOf (step (at_ 1 [0, 1, 1, 0] [1] 2)) = some (.stackOverflow 2) := by decide
theorem test_var_V9 : faultOf (step (at_ 1000 [1, 0x7FFFFFFF] [5] 0)) = some (.stackUnderflow 0) := by decide
theorem test_add_A8 :
    after (step (at_ 1000 [2] [6, 0x77359400, 0x77359400] 0)) = some ([6, 0xEE6B2800], 1) := by decide
theorem test_add_F4 : faultOf (step (at_ 1000 [0, 1, 2] [1] 2)) = some (.stackUnderflow 2) := by decide
theorem test_sub_B1_order : after (step (at_ 1000 [3] [5, 7] 0)) = some ([0xFFFFFFFE], 1) := by decide
theorem test_sub_B4_wraps : after (step (at_ 1000 [3] [0x80000000, 1] 0)) = some ([0x7FFFFFFF], 1) := by decide
theorem test_mul_M9 : after (step (at_ 1000 [4] [0xB505, 0xB505] 0)) = some ([0x80001219], 1) := by decide
theorem test_mul_M18 :
    after (step (at_ 1000 [4] [0x075BCD15, 0x3ADE68B1] 0)) = some ([0xFBFF5385], 1) := by decide
theorem test_pop_Q2 : after (step (at_ 1000 [5] [1] 0)) = some ([], 1) := by decide
theorem test_pop_Q3 : faultOf (step (at_ 1000 [5] [] 0)) = some (.stackUnderflow 0) := by decide
theorem test_swap_Q5 : after (step (at_ 1000 [6] [1, 2, 3] 0)) = some ([1, 3, 2], 1) := by decide
theorem test_swap_Q7 : faultOf (step (at_ 1000 [6] [1] 0)) = some (.stackUnderflow 0) := by decide

theorem test_fetch_E6 : step (at_ 1000 [0, 5, 7] [5] 2) = .next { at_ 1000 [0, 5, 7] [5] 2 with
    status := .faulted, fault := some (.illegalInstruction 7 2) } := by rfl
theorem test_fetch_E13_truncated_before_overflow :
    faultOf (step (at_ 1 [0, 1, 0] [1] 2)) = some (.truncatedInstruction 0 2) := by decide
theorem test_fault_outputs_S6 : ∃ t, step (at_ 1000 [99] [] 0) = .next t ∧
    t.statusOutput = 2#2 ∧ t.faultKind = 1#3 ∧ t.faultPosition = some 0#32 ∧ t.faultInfo = some 99#32 ∧
    t.pc = 0 ∧ t.sp = -1 := ⟨_, rfl, by decide⟩
theorem test_halt_H3 : step (at_ 1000 [0, 1, 0, 2] [1, 2] 4) =
    .next { at_ 1000 [0, 1, 0, 2] [1, 2] 4 with result := 2, status := .halted } := by rfl
theorem test_halt_H1 : faultOf (step (at_ 1000 [] [] 0)) = some (.stackUnderflow 0) := by decide
theorem test_halted_stays (s : State) (h0 : s.start = none) (h : s.status = .halted) : step s = .next s :=
  step_idle h0 (by simp [h])
theorem test_start_abandons_a_run :
    step ((at_ 2 [0, 5, 7] [5] 2).assertStart [0, 8]) = .next (State.invocation 2 [0, 8]) := by rfl

/-! ### Whole runs: the shortest of section 2, and the one-pass check on them -/

theorem test_run_S1 : execute 1000 [0, 0xFFFFFFFF] = .value 0xFFFFFFFF := by decide
theorem test_run_H8 : execute 1 [0, 9, 5, 0, 8] = .value 8 := by decide
theorem test_run_P7 : execute 1000 [0] = .failure (.truncatedInstruction 0 0) := by decide
theorem test_check_H8 : check 1 [0, 9, 5, 0, 8] = none := by decide
theorem test_check_F7 : check 1000 [0, 1, 5, 5] = some (.stackUnderflow 3) := by decide

/-! ### States and operands that meet the hypotheses of the statements

Each theorem is named after its statement and gives one state for each clause, at the edge of the
clause's range. -/

/-- Full and empty at once cannot be; `full` has two slots, both live. -/
def full : State := at_ 2 [0, 1, 0, 2] [1, 2] 4

theorem enabled_at (cap : Nat) (code st : List Word) (pc : Nat) : Enabled (at_ cap code st pc) := ⟨rfl, rfl⟩

theorem invariant_after_const : StepInvariant (at_ 2 [0, 1, 2] [1] 2) where
  contract := ⟨by decide, by decide, by decide⟩
  pc_le := by decide
  sp_range := by decide
  boundary _ := .next (i := .const 1) .start (by decide)
  halted h := by cases h
  faulted h := by cases h
  no_fault _ := rfl

theorem invariant_halted : StepInvariant { at_ 2 [0, 1] [1] 2 with status := .halted, result := 1 } where
  contract := ⟨by decide, by decide, by decide⟩
  pc_le := by decide
  sp_range := by decide
  boundary h := by cases h
  halted _ := by decide
  faulted h := by cases h
  no_fault _ := rfl

theorem invariant_faulted : StepInvariant
    { at_ 2 [7] [] 0 with status := .faulted, fault := some (.illegalInstruction 7 0) } where
  contract := ⟨by decide, by decide, by decide⟩
  pc_le := by decide
  sp_range := by decide
  boundary h := by cases h
  halted h := by cases h
  faulted _ := ⟨_, rfl, rfl⟩
  no_fault h := absurd rfl h

theorem witness_ResetStateMeetsInvariant : InContract 1 [] ∧ InContract Config.maxCap [0, 1] := by
  exact ⟨⟨by decide, by decide, by decide⟩, ⟨by decide, by decide, by decide⟩⟩

theorem witness_EveryStepKeepsInvariant :
    (∃ s t, StepInvariant s ∧ step s = .next t ∧ t.status = .faulted) ∧
    (∃ s t, StepInvariant s ∧ step s = .next t ∧ s.status ≠ .running ∧ s.start = none) :=
  ⟨⟨_, _, invariant_after_const, rfl, rfl⟩, ⟨_, _, invariant_halted, rfl, by decide, rfl⟩⟩

theorem witness_StartTakesTheResetState : Memory.wf Config.maxLen [0, 5] ∧
    decodeAt [0, 5] 0 = some (.instr (.const 5)) ∧
    (Memory.wf Config.maxLen [7] ∧ decodeAt [7] 0 = some (.illegal 7)) ∧
    (Memory.wf Config.maxLen [1] ∧ decodeAt [1] 0 = some (.truncated 1)) ∧
    Memory.wf Config.maxLen [] := by decide

theorem witness_ResetIsTheOnlyWayOutAndForgetsAll :
    (at_ 2 [7] [1] 0).cap = full.cap ∧
    ∃ s t, step s = .next t ∧ t.status = .running ∧ s.status = .halted :=
  ⟨rfl, { full with status := .halted, start := some [0, 5] }, _, rfl, rfl, rfl⟩

theorem witness_TooLongStreamIsRefused : ∃ (s : State) (code : Memory),
    s.start = some code ∧ Config.maxLen < code.length :=
  ⟨State.reset.assertStart (List.replicate (2 ^ 31) 0), _, rfl, by
    rw [List.length_replicate]
    decide⟩

theorem witness_StepRunsTheDecodedInstruction :
    Enabled (at_ 1 [2, 1, 3] [] 1) ∧ decodeAt [2, 1, 3] 1 = some (.instr (.var 3)) :=
  ⟨enabled_at .., by decide⟩

theorem witness_PlacedInstructionRunsNext : decodeTableWord 32 6 = some .swap := by decide

theorem witness_StepDispatchesOnTheOpcodeWord :
    (at_ 1 [] [] 0).len ≤ (at_ 1 [] [] 0).pc ∧ Enabled (at_ 1 [] [] 0) ∧
    (0 : Word).toInt = 0 ∧ (1 : Word).toInt = 1 ∧ (2 : Word).toInt = 2 ∧ (3 : Word).toInt = 3 ∧
    (4 : Word).toInt = 4 ∧ (5 : Word).toInt = 5 ∧ (6 : Word).toInt = 6 ∧
    6 < (7 : Word).toInt ∧ (0xFFFFFFFF : Word).toInt < 0 ∧ ([0] : List Word)[0 + 1]? = none :=
  ⟨by decide, enabled_at .., by decide⟩

theorem witness_HaltStepReturnsTheTopOrFaults :
    (Enabled (at_ 1 [] [] 0) ∧ (at_ 1 [] [] 0).pc = (at_ 1 [] [] 0).len ∧ (at_ 1 [] [] 0).sp < 0) ∧
    (Enabled (at_ 1 [0, 3] [3] 2) ∧ (at_ 1 [0, 3] [3] 2).pc = (at_ 1 [0, 3] [3] 2).len ∧
      0 ≤ (at_ 1 [0, 3] [3] 2).sp) :=
  ⟨⟨enabled_at .., by decide, by decide⟩, ⟨enabled_at .., by decide, by decide⟩⟩

theorem witness_EndedRunKeepsItsState : ∃ s : State, s.status ≠ .running ∧ s.start = none :=
  ⟨{ full with status := .halted }, by decide, rfl⟩

theorem witness_ConstPushesItsLiteral :
    ((at_ 1 [2, 0] [] 1).code[(1 : Nat)]? = some 0 ∧ (at_ 1 [2, 0] [] 1).len ≤ 1 + 1) ∧
    ((full.cap : Int) ≤ full.sp + 1) ∧ (at_ 1 [] [] 0).sp + 1 < ((at_ 1 [] [] 0).cap : Int) := by decide

theorem witness_VarPushesTheSlotAtItsDepth :
    ((at_ 1 [1] [] 0).code[(0 : Nat)]? = some 1 ∧ (at_ 1 [1] [] 0).len ≤ 0 + 1) ∧
    ((0xFFFFFFFF : Word).toInt < 0 ∧ (0x80000000 : Word).toInt < 0) ∧
    (0 ≤ (2 : Word).toInt ∧ full.sp < (2 : Word).toInt) ∧
    (0 ≤ (1 : Word).toInt ∧ (1 : Word).toInt ≤ full.sp ∧ (full.cap : Int) ≤ full.sp + 1) ∧
    (0 ≤ (0 : Word).toInt ∧ (0 : Word).toInt ≤ (at_ 2 [] [1] 0).sp ∧
      (at_ 2 [] [1] 0).sp + 1 < ((at_ 2 [] [1] 0).cap : Int)) := by decide

/-- For ADD, SUB, MUL and SWAP. -/
theorem witness_AddReplacesTheTopTwoByTheirSum : (at_ 2 [] [1] 0).sp < 1 ∧ 1 ≤ full.sp := by decide
theorem witness_SubReplacesTheTopTwoByTheirDifference : (at_ 2 [] [] 0).sp < 1 ∧ 1 ≤ full.sp := by decide
theorem witness_MulReplacesTheTopTwoByTheirProduct : (at_ 2 [] [1] 0).sp < 1 ∧ 1 ≤ full.sp := by decide
theorem witness_SwapExchangesTheTopTwo : (at_ 2 [] [1] 0).sp < 1 ∧ 1 ≤ full.sp := by decide
theorem witness_PopDiscardsTheTop : (at_ 2 [] [] 0).sp < 0 ∧ 0 ≤ (at_ 2 [] [1] 0).sp := by decide

theorem witness_PushWritesOnlyTheNextFreeSlot :
    needs (at_ 1 [] [] 0).cap (.const 5) (at_ 1 [] [] 0).height ∧
    needs (at_ 3 [] [1, 2] 0).cap (.var 1) (at_ 3 [] [1, 2] 0).height ∧
    (0 : Int) ≠ (at_ 3 [] [1, 2] 0).pushIndex :=
  ⟨by unfold needs; decide, by unfold needs; decide, by decide⟩

theorem witness_BinaryWritesOnlyTheSecondFromTop : 2 ≤ full.height ∧
    (Instr.sub, aluSub) ∈ [(Instr.add, aluAdd), (Instr.sub, aluSub), (Instr.mul, aluMul)] :=
  ⟨by decide, by simp⟩

theorem witness_PopWritesNothingAndSwapOnlyTheTopTwo :
    1 ≤ (at_ 2 [] [1] 0).height ∧ 2 ≤ full.height := by decide

theorem witness_HeightsDecideCompletion :
    needs full.cap .mul full.height ∧ ¬ needs full.cap (.const 1) full.height ∧
    (Enabled full ∧ full.len ≤ full.pc) :=
  ⟨by unfold needs; decide, by unfold needs; decide, enabled_at .., by decide⟩

theorem witness_OnlyTheHaltStepWritesTheResult :
    (∃ t, exec .add full = .next t) ∧
    ∃ s t, s.start = none ∧ step s = .next t ∧ t.status = .halted ∧ s.status = .running ∧
      t.result ≠ s.result :=
  ⟨⟨_, rfl⟩, full, _, rfl, rfl, rfl, rfl, by decide⟩

theorem witness_FaultStepChangesNothingElse : ∃ s t,
    Enabled s ∧ s.pc ≤ s.len ∧ step s = .next t ∧ t.status = .faulted :=
  ⟨at_ 1 [7] [] 0, _, enabled_at .., by decide, rfl, rfl⟩

theorem witness_FirstFaultInTheFixedOrderIsRaised :
    faultDue (at_ 1 [7] [] 0) = some (.illegalInstruction 7 0) ∧
    faultDue (at_ 1 [0, 1, 0] [1] 2) = some (.truncatedInstruction 0 2) ∧
    faultDue (at_ 1 [1, 0xFFFFFFFF] [1] 0) = some (.invalidOffset 0xFFFFFFFF 0) ∧
    faultDue (at_ 1 [1, 1] [1] 0) = some (.stackUnderflow 0) ∧
    faultDue (at_ 2 [6] [1] 0) = some (.stackUnderflow 0) ∧
    faultDue (at_ 2 [5] [] 0) = some (.stackUnderflow 0) ∧
    faultDue (at_ 1 [1, 0] [1] 0) = some (.stackOverflow 0) ∧
    faultDue (at_ 1 [] [] 0) = some (.stackUnderflow 0) ∧
    faultDue (at_ 2 [1, 0] [1] 0) = none := by decide

theorem witness_StepAlwaysAnswersANextState : full.start = none := rfl

theorem witness_FaultAndStatusCodesAreTheTables :
    (∃ s, StepInvariant s ∧ s.status = .running) ∧ (∃ s, StepInvariant s ∧ s.status = .halted) ∧
    (∃ s, StepInvariant s ∧ s.status = .faulted) :=
  ⟨⟨_, invariant_after_const, rfl⟩, ⟨_, invariant_halted, rfl⟩, ⟨_, invariant_faulted, rfl⟩⟩

theorem witness_ProgramCounterIsSequential :
    (∃ s t, Enabled s ∧ s.pc ≤ s.len ∧ step s = .next t ∧ t.status = .running) ∧
    (∃ s t, Enabled s ∧ s.pc ≤ s.len ∧ step s = .next t ∧ t.status = .faulted) ∧
    (∃ s t, Enabled s ∧ s.pc ≤ s.len ∧ step s = .next t ∧ t.status = .halted) :=
  ⟨⟨at_ 1 [0, 1] [] 0, _, enabled_at .., by decide, rfl, rfl⟩,
    ⟨at_ 1 [7] [] 0, _, enabled_at .., by decide, rfl, rfl⟩,
    ⟨full, _, enabled_at .., by decide, rfl, rfl⟩⟩

theorem witness_RegistersFitTheirWidths : ∃ s, StepInvariant s ∧ s.status = .faulted :=
  ⟨_, invariant_faulted, rfl⟩

theorem witness_DecodeInvertsEncode : (Instr.var 0x80000000).wellFormed = true := by decide

theorem witness_EncodeInvertsDecode :
    decodeAt [5, 1, 3] 1 = some (.instr (.var 3)) ∧ wellFormedWords [1, 3] = true := by decide

theorem witness_DisassembleInvertsAssemble : disassemble [0, 6, 6] = some [.const 6, .swap] := by decide

theorem witness_IllegalWordsAreAllOthers :
    Enabled (at_ 1 [0x80000000] [] 0) ∧ (0x80000000 : Word).toInt < 0 ∧ 6 < (7 : Word).toInt :=
  ⟨enabled_at .., by decide⟩

theorem witness_WrapIsTheUniqueResidue :
    (-2 ^ 31 : Int) ≤ -2 ^ 31 ∧ (-2 ^ 31 : Int) ≤ 2 ^ 31 - 1 ∧
      (-2 ^ 31 : Int) % 2 ^ 32 = 2 ^ 31 % 2 ^ 32 := by decide

/-- The operands of A5, M17: both the largest word, whose sum and product overflow. -/
theorem witness_OverflowWraps : ∃ s : State,
    s.slot (s.sp - 1) = some 0x7FFFFFFF ∧ s.slot s.sp = some 0x7FFFFFFF ∧
    (Instr.mul, aluMul) ∈ [(Instr.add, aluAdd), (Instr.sub, aluSub), (Instr.mul, aluMul)] :=
  ⟨at_ 2 [] [0x7FFFFFFF, 0x7FFFFFFF] 0, by decide, by decide, by simp⟩

theorem witness_SwapTwiceAndPushPopRestoreTheStack :
    2 ≤ full.height ∧ (1 ≤ (at_ 2 [] [1] 0).height ∧ (at_ 2 [] [1] 0).height < (at_ 2 [] [1] 0).cap) := by
  decide

theorem witness_EveryRunEndsWithinItsBound :
    (∃ s, StepInvariant s ∧ Enabled s) ∧
    ∃ s t, StepInvariant s ∧ Enabled s ∧ step s = .next t ∧ t.status = .running :=
  ⟨⟨_, invariant_after_const, enabled_at ..⟩,
    State.invocation 1 [0, 1], _,
    { contract := ⟨by decide, by decide, by decide⟩, pc_le := by decide, sp_range := by decide,
      boundary := fun _ => .start, halted := fun h => (by cases h), faulted := fun h => (by cases h),
      no_fault := fun _ => rfl },
    ⟨rfl, rfl⟩, rfl, rfl⟩

theorem witness_OnePassCheckPredictsEveryRun : InContract 1 [0, 9, 5, 0, 8] :=
  ⟨by decide, by decide, by decide⟩

theorem witness_LargerCapacityKeepsTheResult :
    InContract 1 [0, 3] ∧ 1 ≤ 2 ∧ execute 1 [0, 3] = .value 3 :=
  ⟨⟨by decide, by decide, by decide⟩, by decide, by decide⟩

end Sys2Proof.Tests
end

section
/-!
The wrap of an exact integer to a word (R10), read back as a signed integer. The closed form
`toInt_wrap32` is the one rule about `wrap32`: range, congruence and uniqueness follow from it and
from the fact that the signed range holds one integer of each residue.
-/
namespace Sys2Proof.Machine

theorem toInt_wrap32 (z : Int) : (wrap32 z).toInt = (z + 2 ^ 31) % 2 ^ 32 - 2 ^ 31 := by
  have hbmod : (wrap32 z).toInt = z.bmod (2 ^ 32) := BitVec.toInt_ofInt z
  rw [hbmod, Int.bmod_def]
  split <;> omega

theorem wrap32_signed_range (z : Int) :
    -2 ^ 31 ≤ (wrap32 z).toInt ∧ (wrap32 z).toInt ≤ 2 ^ 31 - 1 := by
  rw [toInt_wrap32]
  omega

theorem toInt_wrap32_emod (z : Int) : (wrap32 z).toInt % 2 ^ 32 = z % 2 ^ 32 := by
  rw [toInt_wrap32]
  omega

/-- The signed range has `2 ^ 32` members, so it holds at most one integer of each residue. -/
theorem signed_range_residue_unique {r t : Int} (hr : -2 ^ 31 ≤ r ∧ r ≤ 2 ^ 31 - 1)
    (ht : -2 ^ 31 ≤ t ∧ t ≤ 2 ^ 31 - 1) (h : r % 2 ^ 32 = t % 2 ^ 32) : r = t := by
  omega

theorem eq_toInt_wrap32 {r z : Int} (hr : -2 ^ 31 ≤ r ∧ r ≤ 2 ^ 31 - 1)
    (h : r % 2 ^ 32 = z % 2 ^ 32) : r = (wrap32 z).toInt :=
  signed_range_residue_unique hr (wrap32_signed_range z) (h.trans (toInt_wrap32_emod z).symm)

/-- Settles O34, from the closed form of `wrap32` and the uniqueness of residues in the signed
range. -/
theorem wrapIsTheUniqueResidue : Obligations.WrapIsTheUniqueResidue := fun z =>
  ⟨wrap32_signed_range z, toInt_wrap32_emod z, toInt_wrap32 z,
    fun _ hlow hhigh hres => eq_toInt_wrap32 ⟨hlow, hhigh⟩ hres⟩

end Sys2Proof.Machine
end

section
/-!
The invariant of step boundaries (R39). One lemma for each thing a step can do (reset, a fault, the
halt step, an instruction that completes, nothing at all) says that it keeps the invariant; `step_cases`
says that a step does one of them.
-/
namespace Sys2Proof.Machine

open Sys2Proof.Safety

/-! ### The height of the stack -/

/-- R39 (b), read on the height. -/
theorem State.sp_range_iff {s : State} :
    (-1 ≤ s.sp ∧ s.sp ≤ (s.cap : Int) - 1) ↔ s.height ≤ s.cap := by
  rw [s.sp_eq]
  omega

/-- Only CONST and VAR raise the height, and they need a free slot. -/
theorem heightAfter_le_cap {cap h p : Nat} {i : Instr} (hf : heightFault cap i h p = none)
    (hcap : h ≤ cap) : heightAfter i h ≤ cap := by
  cases i with
  | const c =>
    have room : h < cap := by simpa [heightFault] using hf
    simp only [heightAfter, stackEffect]
    omega
  | var n =>
    have room : h < cap := by
      simp only [heightFault] at hf
      split_ifs at hf
      omega
    simp only [heightAfter, stackEffect]
    omega
  | add | sub | mul | pop | swap =>
    simp only [heightAfter, stackEffect]
    omega

/-! ### What keeps the invariant -/

theorem stepInvariant_invocation {cap : Nat} {code : Memory} (h : InContract cap code) :
    StepInvariant (State.invocation cap code) where
  contract := h
  pc_le := Nat.zero_le _
  sp_range := State.sp_range_iff.mpr (Nat.zero_le _)
  boundary _ := .start
  halted h := nomatch h
  faulted h := nomatch h
  no_fault _ := rfl

/-- A fault keeps the program counter, which its record names (R205, R207). -/
theorem stepInvariant_raise {s : State} {r : FaultRecord} (inv : StepInvariant s)
    (hr : r.position = s.pc) : StepInvariant (s.raise r) where
  contract := inv.contract
  pc_le := inv.pc_le
  sp_range := inv.sp_range
  boundary h := nomatch h
  halted h := nomatch h
  faulted _ := ⟨r, rfl, hr⟩
  no_fault h := absurd rfl h

theorem stepInvariant_halt {s : State} {v : Word} (inv : StepInvariant s)
    (hrun : s.status = .running) (hend : s.len ≤ s.pc) (hv : s.slot s.sp = some v) :
    StepInvariant { s with result := v, status := .halted } where
  contract := inv.contract
  pc_le := inv.pc_le
  sp_range := inv.sp_range
  boundary h := nomatch h
  halted _ := ⟨Nat.le_antisymm inv.pc_le hend, hv⟩
  faulted h := nomatch h
  no_fault _ := inv.no_fault (by simp [hrun])

/-- An instruction that completes goes on to the next boundary, with a height within the capacity. -/
theorem stepInvariant_complete {s : State} {i : Instr} {st : Memory} (inv : StepInvariant s)
    (hrun : s.status = .running) (hdec : decodeAt s.code s.pc = some (.instr i))
    (hst : st.length ≤ s.cap) :
    StepInvariant { s with stack := st, pc := s.pc + i.length } where
  contract := inv.contract
  pc_le := decodeAt_length_le hdec
  sp_range := State.sp_range_iff.mpr hst
  boundary _ := .next (inv.boundary hrun) hdec
  halted h := by simp [hrun] at h
  faulted h := by simp [hrun] at h
  no_fault := inv.no_fault

theorem runningStep_keeps_invariant {s t : State} (inv : StepInvariant s)
    (hrun : s.status = .running) (h : runningStep s = .next t) : StepInvariant t := by
  rcases runningStep_cases s with ⟨r, he, hr⟩ | ⟨hend, v, hv, he⟩ | ⟨i, hdec, hf, st, hlen, he⟩ <;>
    obtain rfl := Host.Outcome.next.inj (he.symm.trans h)
  · exact stepInvariant_raise inv (hr inv.pc_le)
  · exact stepInvariant_halt inv hrun hend hv
  · have hcap : s.height ≤ s.cap := State.sp_range_iff.mp inv.sp_range
    exact stepInvariant_complete inv hrun hdec (hlen.trans_le (heightAfter_le_cap hf hcap))

/-! ### A step of the machine -/

/-- A step that answers a next state is a reset, the idle step of an ended run, or a step of a run in
progress. -/
theorem step_cases {s t : State} (h : step s = .next t) :
    (∃ code, s.start = some code ∧ Memory.wf Config.maxLen code ∧ t = State.invocation s.cap code) ∨
    (s.start = none ∧ s.status ≠ .running ∧ t = s) ∨
    (Enabled s ∧ runningStep s = .next t) := by
  rcases hs : s.start with _ | code
  · by_cases hrun : s.status = .running
    · exact .inr (.inr ⟨⟨hs, hrun⟩, (step_enabled ⟨hs, hrun⟩).symm.trans h⟩)
    · have ht : Host.Outcome.next s = .next t := (step_idle hs hrun).symm.trans h
      exact .inr (.inl ⟨rfl, hrun, (Host.Outcome.next.inj ht).symm⟩)
  · rw [step_start hs] at h
    rcases Nat.lt_or_ge Config.maxLen code.length with hlong | hwf
    · rw [resetStep_long hlong] at h
      cases h
    · rw [resetStep_wf hwf] at h
      exact .inl ⟨code, rfl, hwf, (Host.Outcome.next.inj h).symm⟩

/-- R39 (a) to (e). A reset keeps the capacity, so it stays in the contract of the invocation before. -/
theorem step_keeps_invariant {s t : State} (inv : StepInvariant s) (h : step s = .next t) :
    StepInvariant t := by
  rcases step_cases h with ⟨code, -, hwf, rfl⟩ | ⟨-, -, rfl⟩ | ⟨⟨-, hrun⟩, he⟩
  · exact stepInvariant_invocation ⟨hwf, inv.contract.2⟩
  · exact inv
  · exact runningStep_keeps_invariant inv hrun he

/-- R39 (f): an ended run that nobody starts again keeps its status. -/
theorem step_keeps_ended_status {s t : State} (h : step s = .next t) (hend : s.status ≠ .running)
    (hs : s.start = none) : t.status = s.status := by
  obtain rfl : s = t := Host.Outcome.next.inj ((step_idle hs hend).symm.trans h)
  rfl

/-- Settles O2: the invariant holds after reset, whatever a step can do keeps it, and a run that has
ended stays ended. -/
theorem everyStepKeepsInvariant : Obligations.EveryStepKeepsInvariant :=
  ⟨fun _ _ => stepInvariant_invocation, fun _ _ inv h =>
    ⟨step_keeps_invariant inv h, step_keeps_ended_status h⟩⟩

end Sys2Proof.Machine
end

section
/-!
The illegal opcode words (R87). The seven opcode words of R86 are the words with the signed values 0
to 6, and the decoder answers `illegal` for every word but those seven.
-/
namespace Sys2Proof

/-- The table of R86 leaves no gap in `0 .. 6`. -/
theorem opcode_iff_toInt_range {w : Word} :
    (w = 0 ∨ w = 1 ∨ w = 2 ∨ w = 3 ∨ w = 4 ∨ w = 5 ∨ w = 6) ↔ 0 ≤ w.toInt ∧ w.toInt ≤ 6 := by
  constructor
  · rintro (rfl | rfl | rfl | rfl | rfl | rfl | rfl) <;> decide
  · rintro ⟨hlow, hhigh⟩
    have hw : BitVec.ofInt 32 w.toInt = w := BitVec.ofInt_toInt
    generalize w.toInt = z at hw hlow hhigh
    subst hw
    interval_cases z <;> decide

theorem decodeImmediate_ne_illegal (mk : Word → Instr) (w v : Word) (after : Option Word) :
    decodeImmediate mk w after ≠ .illegal v := by
  cases after <;> nofun

/-- The word after the opcode word plays no part: an operand word is never tested (R84, R87). -/
theorem decode_eq_illegal_iff {w : Word} {after : Option Word} :
    decode w after = .illegal w ↔
      ¬(w = 0 ∨ w = 1 ∨ w = 2 ∨ w = 3 ∨ w = 4 ∨ w = 5 ∨ w = 6) := by
  constructor
  · rintro h (rfl | rfl | rfl | rfl | rfl | rfl | rfl)
    · exact decodeImmediate_ne_illegal .const 0 0 after h
    · exact decodeImmediate_ne_illegal .var 1 1 after h
    all_goals cases h
  · intro hw
    simp only [not_or] at hw
    obtain ⟨h0, h1, h2, h3, h4, h5, h6⟩ := hw
    simp only [decode, h0, h1, h2, h3, h4, h5, h6, if_false]

theorem decode_eq_illegal_iff_toInt {w : Word} {after : Option Word} :
    decode w after = .illegal w ↔ w.toInt < 0 ∨ 6 < w.toInt := by
  rw [decode_eq_illegal_iff, opcode_iff_toInt_range]
  omega

theorem decodeAt_of_getElem? {code : List Word} {p : Nat} {w : Word} (h : code[p]? = some w) :
    decodeAt code p = some (decode w code[p + 1]?) := by
  simp only [decodeAt, h]

end Sys2Proof

namespace Sys2Proof.Machine

open Sys2Proof.Safety

theorem runningStep_illegal {s : State} {w : Word} (h : decodeAt s.code s.pc = some (.illegal w)) :
    runningStep s = .next (s.raise (.illegalInstruction w s.pc)) := by
  simp only [runningStep, h, takeFault]

/-- An illegal opcode word that is fetched is a fault that names it (R201). -/
theorem step_illegal_opcode {s : State} {w : Word} (hen : Enabled s) (hw : s.code[s.pc]? = some w)
    (hill : w.toInt < 0 ∨ 6 < w.toInt) :
    step s = .next (s.raise (.illegalInstruction w s.pc)) := by
  have hdec : decodeAt s.code s.pc = some (.illegal w) :=
    (decodeAt_of_getElem? hw).trans (congrArg some (decode_eq_illegal_iff_toInt.mpr hill))
  exact (step_enabled hen).trans (runningStep_illegal hdec)

/-- Settles O33: the decoder refuses exactly the words outside `0 .. 6`, a step that fetches one
raises the fault, and CONST and VAR take any operand word. -/
theorem illegalWordsAreAllOthers : Obligations.IllegalWordsAreAllOthers :=
  ⟨fun _ _ => decode_eq_illegal_iff_toInt, fun _ _ => step_illegal_opcode, fun _ => ⟨rfl, rfl⟩⟩

end Sys2Proof.Machine
end

section
/-!
Fetch and dispatch (R111, R116): what an enabled step does, by what the decoder finds at the program
counter.
-/
namespace Sys2Proof.Machine

open Sys2Proof.Safety

/-! ### A step by what stands at the program counter -/

theorem step_at_end {s : State} (hen : Enabled s) (hend : s.len ≤ s.pc) : step s = haltStep s := by
  rw [step_enabled hen, runningStep, decodeAt_eq_none_iff.mpr hend]

theorem step_of_decode_instr {s : State} {w : Word} {i : Instr} (hen : Enabled s)
    (hw : s.code[s.pc]? = some w) (hdec : decode w s.code[s.pc + 1]? = .instr i) :
    step s = exec i s := by
  rw [step_enabled hen, runningStep, decodeAt_of_getElem? hw, hdec]

theorem step_of_decode_truncated {s : State} {w v : Word} (hen : Enabled s)
    (hw : s.code[s.pc]? = some w) (hdec : decode w s.code[s.pc + 1]? = .truncated v) :
    step s = .next (s.raise (.truncatedInstruction v s.pc)) := by
  rw [step_enabled hen, runningStep, decodeAt_of_getElem? hw, hdec]
  rfl

/-- Settles O8: each value of the opcode word fixes the word, and so what the decoder answers for it;
the words outside `0 .. 6` are `step_illegal_opcode`. -/
theorem stepDispatchesOnTheOpcodeWord : Obligations.StepDispatchesOnTheOpcodeWord := by
  intro s hen
  refine ⟨step_at_end hen, fun w hw => ?_⟩
  have opcode : ∀ v : Word, w.toInt = v.toInt → s.code[s.pc]? = some v := fun v hv =>
    BitVec.eq_of_toInt_eq hv ▸ hw
  refine ⟨fun h c hc => ?const, fun h hc => ?constTruncated, fun h n hn => ?var,
    fun h hn => ?varTruncated, fun h => ?add, fun h => ?sub, fun h => ?mul, fun h => ?pop,
    fun h => ?swap, step_illegal_opcode hen hw⟩
  case const => exact step_of_decode_instr hen (opcode 0 h) (by rw [hc]; rfl)
  case constTruncated => exact step_of_decode_truncated hen (opcode 0 h) (by rw [hc]; rfl)
  case var => exact step_of_decode_instr hen (opcode 1 h) (by rw [hn]; rfl)
  case varTruncated => exact step_of_decode_truncated hen (opcode 1 h) (by rw [hn]; rfl)
  case add => exact step_of_decode_instr hen (opcode 2 h) rfl
  case sub => exact step_of_decode_instr hen (opcode 3 h) rfl
  case mul => exact step_of_decode_instr hen (opcode 4 h) rfl
  case pop => exact step_of_decode_instr hen (opcode 5 h) rfl
  case swap => exact step_of_decode_instr hen (opcode 6 h) rfl

/-! ### The halt step -/

theorem step_at_end_empty {s : State} (hen : Enabled s) (hpc : s.pc = s.len) (hsp : s.sp < 0) :
    step s = .next (s.raise (.stackUnderflow s.len)) := by
  have hempty : s.height = 0 := by rw [s.sp_eq] at hsp; omega
  rw [step_at_end hen hpc.ge, haltStep_empty hempty]

theorem step_at_end_top {s : State} (hen : Enabled s) (hpc : s.pc = s.len) (hsp : 0 ≤ s.sp) :
    ∃ v, s.slot s.sp = some v ∧ step s = .next { s with result := v, status := .halted } := by
  rw [step_at_end hen hpc.ge]
  rcases haltStep_cases s with ⟨hempty, -⟩ | ⟨-, htop⟩
  · rw [s.sp_eq] at hsp
    omega
  · exact htop

/-- Settles O9: the two ends of a run by the height of the stack; the empty stream is at its end from
reset, with an empty stack. -/
theorem haltStepReturnsTheTopOrFaults : Obligations.HaltStepReturnsTheTopOrFaults :=
  ⟨fun _ => step_at_end_empty, fun _ => step_at_end_top, fun cap =>
    step_at_end_empty (s := State.invocation cap []) ⟨rfl, rfl⟩ rfl (by decide : (-1 : Int) < 0)⟩

end Sys2Proof.Machine
end

section
/-!
The program counter (R119): an opcode word and the length of the instruction it decodes to, and what
an enabled step does to the program counter.
-/
namespace Sys2Proof

theorem Instr.length_pos (i : Instr) : 1 ≤ i.length := by
  cases i <;> simp [Instr.length]

/-- The opcode words 0 and 1 are those of two words, 2 to 6 those of one (R85, R86). -/
theorem decode_instr_length {w : Word} {after : Option Word} {i : Instr}
    (h : decode w after = .instr i) :
    ((w.toInt = 0 ∨ w.toInt = 1) ∧ i.length = 2) ∨
      ((2 ≤ w.toInt ∧ w.toInt ≤ 6) ∧ i.length = 1) := by
  have hlegal : w = 0 ∨ w = 1 ∨ w = 2 ∨ w = 3 ∨ w = 4 ∨ w = 5 ∨ w = 6 := by
    by_contra hill
    rw [decode_eq_illegal_iff.mpr hill] at h
    cases h
  rcases hlegal with rfl | rfl | rfl | rfl | rfl | rfl | rfl
  · rcases after with _ | c
    · cases h
    · cases h
      exact .inl ⟨.inl rfl, rfl⟩
  · rcases after with _ | n
    · cases h
    · cases h
      exact .inl ⟨.inr rfl, rfl⟩
  all_goals
    cases h
    exact .inr ⟨by decide, rfl⟩

theorem exists_opcode_of_decodeAt {code : List Word} {p : Nat} {d : Decoded}
    (h : decodeAt code p = some d) : ∃ w, code[p]? = some w ∧ decode w code[p + 1]? = d := by
  rcases hw : code[p]? with _ | w
  · simp [decodeAt, hw] at h
  · exact ⟨w, rfl, Option.some.inj ((decodeAt_of_getElem? hw).symm.trans h)⟩

end Sys2Proof

namespace Sys2Proof.Machine

open Sys2Proof.Safety

/-- Settles O27, by the three things a step of a run in progress can do: only an instruction that
completes leaves the run in progress, and it lies inside the stream whole. -/
theorem programCounterIsSequential : Obligations.ProgramCounterIsSequential := by
  intro s t hen hle h
  rw [step_enabled hen] at h
  have hrun : s.status = .running := hen.2
  rcases runningStep_cases s with ⟨r, he, -⟩ | ⟨hend, v, -, he⟩ | ⟨i, hdec, -, st, -, he⟩ <;>
    obtain rfl := Host.Outcome.next.inj (he.symm.trans h)
  · exact ⟨nofun, fun _ => rfl, nofun⟩
  · have hpc : s.pc = s.len := Nat.le_antisymm hle hend
    exact ⟨nofun, nofun, fun _ => ⟨hpc, hpc⟩⟩
  · obtain ⟨w, hw, hd⟩ := exists_opcode_of_decodeAt hdec
    refine ⟨fun _ => ⟨decodeAt_length_le hdec, w, hw, ?_⟩, fun hf => ?_, fun hh => ?_⟩
    · have hlen := decode_instr_length hd
      dsimp only
      omega
    · simp [hrun] at hf
    · simp [hrun] at hh

end Sys2Proof.Machine
end

section
/-!
Every run ends (R122). An enabled step ends the run or moves the program counter on inside the stream,
so the words left bound the number of steps; a run that has ended stays as it is.
-/
namespace Sys2Proof.Machine

open Sys2Proof.Safety

/-! ### Runs, step by step -/

theorem runFor_succ_of_step {s t : State} (h : step s = .next t) (k : Nat) :
    runFor (k + 1) s = runFor k t := by
  rw [runFor, h]

theorem runFor_succ_eq_next {s u : State} {k : Nat} (h : runFor (k + 1) s = .next u) :
    ∃ t, step s = .next t ∧ runFor k t = .next u := by
  rw [runFor] at h
  split at h
  · exact ⟨_, ‹_›, h⟩
  · cases h
  · cases h

theorem runFor_ended {s : State} (hs : s.start = none) (hend : s.status ≠ .running) (k : Nat) :
    runFor k s = .next s := by
  induction k with
  | zero => rfl
  | succ k ih => rw [runFor_succ_of_step (step_idle hs hend), ih]

theorem runFor_keeps_invariant {k : Nat} {s t : State} (inv : StepInvariant s)
    (h : runFor k s = .next t) : StepInvariant t := by
  induction k generalizing s with
  | zero => exact Host.Outcome.next.inj h ▸ inv
  | succ k ih =>
    obtain ⟨u, hstep, hrest⟩ := runFor_succ_eq_next h
    exact ih (step_keeps_invariant inv hstep) hrest

/-! ### Progress -/

/-- An enabled step ends the run, or goes on to a later position of the same stream. -/
theorem step_ends_or_advances {s : State} (hen : Enabled s) :
    ∃ t, step s = .next t ∧
      ((t.start = none ∧ t.status ≠ .running) ∨
        (Enabled t ∧ t.len = s.len ∧ s.pc + 1 ≤ t.pc ∧ t.pc ≤ t.len)) := by
  rw [step_enabled hen]
  rcases runningStep_cases s with ⟨r, he, -⟩ | ⟨-, v, -, he⟩ | ⟨i, hdec, -, st, -, he⟩
  · exact ⟨_, he, .inl ⟨hen.1, nofun⟩⟩
  · exact ⟨_, he, .inl ⟨hen.1, nofun⟩⟩
  · exact ⟨_, he, .inr ⟨hen, rfl, Nat.add_le_add_left i.length_pos _, decodeAt_length_le hdec⟩⟩

theorem step_running_advances {s t : State} (hen : Enabled s) (h : step s = .next t)
    (hrun : t.status = .running) : s.pc + 1 ≤ t.pc ∧ t.pc ≤ t.len := by
  obtain ⟨t', ht, hcase⟩ := step_ends_or_advances hen
  obtain rfl : t' = t := Host.Outcome.next.inj (ht.symm.trans h)
  rcases hcase with ⟨-, hended⟩ | ⟨-, -, hadv⟩
  · exact absurd hrun hended
  · exact hadv

/-- The induction is on a bound `n` of the words left: with none left the step is the last one. -/
theorem runFor_ends {n : Nat} {s : State} (hen : Enabled s) (hleft : s.len - s.pc ≤ n) :
    ∃ t, runFor (n + 1) s = .next t ∧ t.status ≠ .running := by
  induction n generalizing s with
  | zero =>
    obtain ⟨t, hstep, ⟨-, hended⟩ | ⟨-, hlen, hadv, hpc⟩⟩ := step_ends_or_advances hen
    · exact ⟨t, runFor_succ_of_step hstep 0, hended⟩
    · omega
  | succ n ih =>
    obtain ⟨t, hstep, ⟨hs, hended⟩ | ⟨hent, hlen, hadv, -⟩⟩ := step_ends_or_advances hen <;>
      rw [runFor_succ_of_step hstep]
    · exact ⟨t, runFor_ended hs hended _, hended⟩
    · exact ih hent (by omega)

/-! ### What the environment reads at the end -/

/-- A fault record stands wherever `status` is FAULTED (R32), so an ended run can be read. -/
theorem outcome_ne_noOutcome {s : State} (inv : StepInvariant s) (hend : s.status ≠ .running) :
    s.outcome ≠ .noOutcome := by
  rw [State.outcome]
  cases hst : s.status with
  | running => exact absurd hst hend
  | halted => nofun
  | faulted =>
    obtain ⟨r, hr, -⟩ := inv.faulted hst
    rw [hr]
    nofun

theorem execute_ne_noOutcome {cap : Nat} {code : Memory} (h : InContract cap code) :
    execute cap code ≠ .noOutcome := by
  obtain ⟨t, hrun, hend⟩ : ∃ t, runFor (code.length + 1) (State.invocation cap code) = .next t ∧
      t.status ≠ .running := runFor_ends ⟨rfl, rfl⟩ (Nat.sub_le _ _)
  rw [execute, hrun]
  exact outcome_ne_noOutcome (runFor_keeps_invariant (stepInvariant_invocation h) hrun) hend

/-- Settles O39: a step that does not end the run moves the program counter on, so the words left
bound the run, and what it ends in can be read. -/
theorem everyRunEndsWithinItsBound : Obligations.EveryRunEndsWithinItsBound :=
  ⟨fun _ _ _ hen h hrun => step_running_advances hen h hrun,
    fun _ _ hen => runFor_ends hen le_rfl, fun _ _ => execute_ne_noOutcome⟩

end Sys2Proof.Machine
end

section
/-!
CONST and VAR (R140, R141): a missing operand word is found by the fetch, a full stack by the push,
and VAR looks at its offset before either. The bounds on the height are read on the stack pointer, as
the spec has them.
-/
namespace Sys2Proof.Machine

open Sys2Proof.Safety

/-! ### The operand word -/

/-- An opcode word that needs an operand word and is the last of the stream (R113, R204). -/
theorem step_operand_missing {s : State} {w : Word} (hen : Enabled s) (hw : s.code[s.pc]? = some w)
    (hend : s.len ≤ s.pc + 1) (hdec : decode w none = .truncated w) :
    step s = .next (s.raise (.truncatedInstruction w s.pc)) := by
  have hnone : s.code[s.pc + 1]? = none := List.getElem?_eq_none hend
  exact step_of_decode_truncated hen hw (hnone.symm ▸ hdec)

/-! ### The push -/

theorem pushValue_full_of_sp {s : State} (v : Word) (h : (s.cap : Int) ≤ s.sp + 1) :
    pushValue v s = .next (s.raise (.stackOverflow s.pc)) :=
  pushValue_full (by rw [s.sp_eq] at h; omega)

theorem pushValue_room_of_sp {s : State} (v : Word) (h : s.sp + 1 < (s.cap : Int)) :
    pushValue v s = .next ((s.put v).advance 2) :=
  pushValue_room (by rw [s.sp_eq] at h; omega)

/-- Settles O11: the missing operand word is the fetch's, and with its literal CONST is the push. -/
theorem constPushesItsLiteral : Obligations.ConstPushesItsLiteral :=
  ⟨fun _ => ⟨rfl, rfl⟩, fun _ hen hw hend => step_operand_missing hen hw hend rfl,
    fun _ c => pushValue_full_of_sp c, fun _ c => pushValue_room_of_sp c⟩

/-! ### The slot that VAR reads -/

theorem execVar_above_sp {s : State} {n : Word} (h0 : 0 ≤ n.toInt) (h : s.sp < n.toInt) :
    execVar n s = .next (s.raise (.stackUnderflow s.pc)) :=
  execVar_deep h0 (by rw [s.sp_eq] at h; omega)

/-- An offset of `0 .. sp` names a live slot, and VAR pushes what it holds before the push (R141). -/
theorem execVar_eq_pushValue_slot {s : State} {n : Word} (h0 : 0 ≤ n.toInt) (h : n.toInt ≤ s.sp) :
    ∃ v, s.slot (s.sp - n.toInt) = some v ∧ execVar n s = pushValue v s := by
  have hlive : n.toInt < s.height := by rw [s.sp_eq] at h; omega
  obtain ⟨v, hv, he⟩ := execVar_live h0 hlive
  refine ⟨v, ?_, he⟩
  calc s.slot (s.sp - n.toInt)
      = s.slot (s.depthIndex n.toInt.toNat) := by rw [State.depthIndex, Int.toNat_of_nonneg h0]
    _ = s.atDepth n.toInt.toNat := s.slot_depthIndex _
    _ = some v := hv

theorem execVar_full {s : State} {n : Word} (h0 : 0 ≤ n.toInt) (h : n.toInt ≤ s.sp)
    (hfull : (s.cap : Int) ≤ s.sp + 1) :
    execVar n s = .next (s.raise (.stackOverflow s.pc)) := by
  obtain ⟨v, -, he⟩ := execVar_eq_pushValue_slot h0 h
  rw [he, pushValue_full_of_sp v hfull]

theorem execVar_room {s : State} {n : Word} (h0 : 0 ≤ n.toInt) (h : n.toInt ≤ s.sp)
    (hroom : s.sp + 1 < (s.cap : Int)) :
    ∃ v, s.slot (s.sp - n.toInt) = some v ∧ execVar n s = .next ((s.put v).advance 2) := by
  obtain ⟨v, hv, he⟩ := execVar_eq_pushValue_slot h0 h
  exact ⟨v, hv, he.trans (pushValue_room_of_sp v hroom)⟩

/-- Settles O12, fault by fault in the order of the checks: the operand word, the sign of the offset,
the slot it names, the free slot; past all four VAR pushes the slot. -/
theorem varPushesTheSlotAtItsDepth : Obligations.VarPushesTheSlotAtItsDepth :=
  ⟨fun _ => ⟨rfl, rfl⟩, fun _ hen hw hend => step_operand_missing hen hw hend rfl,
    fun _ _ => execVar_negative, fun _ _ => execVar_above_sp, fun _ _ => execVar_full,
    fun _ _ => execVar_room⟩

end Sys2Proof.Machine
end

section
/-!
The ALU as the ring of the integers modulo `2 ^ 32` (R166). `BitVec 32` is a commutative ring in
Mathlib, and reducing modulo `2 ^ 32` commutes with sum, difference and product; so the operations
that compute exactly and wrap once at the end are the ring's own, and the laws are the ring's.
-/
namespace Sys2Proof.Machine

theorem wrap32_toInt (x : Word) : wrap32 x.toInt = x := BitVec.ofInt_toInt

theorem wrap32_add (y z : Int) : wrap32 (y + z) = wrap32 y + wrap32 z := BitVec.ofInt_add y z

theorem wrap32_mul (y z : Int) : wrap32 (y * z) = wrap32 y * wrap32 z := BitVec.ofInt_mul y z

theorem wrap32_sub (y z : Int) : wrap32 (y - z) = wrap32 y - wrap32 z := by
  have hneg : wrap32 (-z) = -wrap32 z := BitVec.ofInt_neg
  rw [sub_eq_add_neg, wrap32_add, hneg, ← sub_eq_add_neg]

/-! ### The operations are those of the ring -/

theorem aluAdd_eq_add (a b : Word) : aluAdd a b = a + b := by
  rw [aluAdd, wrap32_add, wrap32_toInt, wrap32_toInt]

theorem aluSub_eq_sub (a b : Word) : aluSub a b = a - b := by
  rw [aluSub, wrap32_sub, wrap32_toInt, wrap32_toInt]

theorem aluMul_eq_mul (a b : Word) : aluMul a b = a * b := by
  rw [aluMul, wrap32_mul, wrap32_toInt, wrap32_toInt]

/-- R166 (f). In the signed range only 0 and the lowest integer are congruent to their negation. -/
theorem aluSub_zero_left_eq_self_iff {x : Word} :
    aluSub 0 x = x ↔ x.toInt = 0 ∨ x.toInt = -2 ^ 31 := by
  have hzero : (0 : Word).toInt = 0 := rfl
  have hlow : -2 ^ 31 ≤ x.toInt := BitVec.le_toInt x
  have hhigh : x.toInt < 2 ^ 31 := BitVec.toInt_lt
  rw [← BitVec.toInt_inj, aluSub, toInt_wrap32, hzero]
  omega

/-- Settles O36: each law is the ring's, but for (f), which is about the signed range. -/
theorem aluIsTheRingModuloTwoToThe32 : Obligations.AluIsTheRingModuloTwoToThe32 := by
  intro x y z
  have hself : aluSub 0 x = x ↔ x.toInt = 0 ∨ x.toInt = -2 ^ 31 := aluSub_zero_left_eq_self_iff
  simp only [aluAdd_eq_add, aluSub_eq_sub, aluMul_eq_mul] at hself ⊢
  exact ⟨⟨add_comm x y, mul_comm x y⟩, ⟨add_assoc x y z, mul_assoc x y z⟩, mul_add x y z,
    ⟨add_zero x, mul_one x, mul_zero x, sub_self x, sub_zero x⟩,
    ⟨by rw [zero_sub, sub_eq_add_neg], sub_add_cancel x y, add_sub_cancel_right x y⟩,
    hself, by rw [mul_neg_one, zero_sub]⟩

end Sys2Proof.Machine
end

section
/-!
ADD, SUB and MUL (R160 to R163): the one rule of a binary operator, with the needs read on the stack
pointer and the operands on the slots, as the spec has them.
-/
namespace Sys2Proof.Machine

theorem State.slot_sp (s : State) : s.slot s.sp = s.atDepth 0 := by
  simpa [depthIndex] using s.slot_depthIndex 0

theorem State.slot_sp_sub_one (s : State) : s.slot (s.sp - 1) = s.atDepth 1 :=
  s.slot_depthIndex 1

theorem binary_short_of_sp {op : Word → Word → Word} {s : State} (h : s.sp < 1) :
    binary op s = .next (s.raise (.stackUnderflow s.pc)) :=
  binary_short (by rw [s.sp_eq] at h; omega)

theorem binary_replaces_top_two {op : Word → Word → Word} {s : State} (h : 1 ≤ s.sp) :
    ∃ a b, s.slot (s.sp - 1) = some a ∧ s.slot s.sp = some b ∧
      binary op s = .next (((s.lower 2).put (op a b)).advance 1) := by
  obtain ⟨a, b, ha, hb, -, he⟩ := binary_complete (op := op) (s := s) (by rw [s.sp_eq] at h; omega)
  exact ⟨a, b, s.slot_sp_sub_one.trans ha, s.slot_sp.trans hb, he⟩

/-- Settles O13: ADD is the binary operator of the wrapped sum. -/
theorem addReplacesTheTopTwoByTheirSum : Obligations.AddReplacesTheTopTwoByTheirSum :=
  ⟨⟨rfl, fun _ => rfl⟩, fun _ => binary_short_of_sp, fun _ =>
    binary_replaces_top_two (op := aluAdd)⟩

/-- Settles O14: SUB is the binary operator of the wrapped difference. -/
theorem subReplacesTheTopTwoByTheirDifference :
    Obligations.SubReplacesTheTopTwoByTheirDifference :=
  ⟨⟨rfl, fun _ => rfl⟩, fun _ => binary_short_of_sp, fun _ =>
    binary_replaces_top_two (op := aluSub)⟩

/-- Settles O15: MUL is the binary operator of the wrapped product. -/
theorem mulReplacesTheTopTwoByTheirProduct : Obligations.MulReplacesTheTopTwoByTheirProduct :=
  ⟨⟨rfl, fun _ => rfl⟩, fun _ => binary_short_of_sp, fun _ =>
    binary_replaces_top_two (op := aluMul)⟩

end Sys2Proof.Machine
end

section
/-!
POP and SWAP (R180, R181): the rules of the two meanings, with the needs read on the stack pointer and
the exchanged values on the slots, as the spec has them.
-/
namespace Sys2Proof.Machine

theorem execPop_empty_of_sp {s : State} (h : s.sp < 0) :
    execPop s = .next (s.raise (.stackUnderflow s.pc)) :=
  execPop_empty (by rw [s.sp_eq] at h; omega)

theorem execPop_complete_of_sp {s : State} (h : 0 ≤ s.sp) :
    execPop s = .next ((s.lower 1).advance 1) :=
  execPop_complete (by rw [s.sp_eq] at h; omega)

/-- Settles O16: POP faults on the empty stack, and gives up the top of every other. -/
theorem popDiscardsTheTop : Obligations.PopDiscardsTheTop :=
  ⟨⟨rfl, fun _ => rfl⟩, fun _ => execPop_empty_of_sp, fun _ => execPop_complete_of_sp⟩

theorem execSwap_short_of_sp {s : State} (h : s.sp < 1) :
    execSwap s = .next (s.raise (.stackUnderflow s.pc)) :=
  execSwap_short (by rw [s.sp_eq] at h; omega)

theorem execSwap_exchanges_top_two {s : State} (h : 1 ≤ s.sp) :
    ∃ a b, s.slot (s.sp - 1) = some a ∧ s.slot s.sp = some b ∧
      execSwap s = .next ((((s.lower 2).put b).put a).advance 1) := by
  obtain ⟨a, b, ha, hb, -, he⟩ := execSwap_complete (s := s) (by rw [s.sp_eq] at h; omega)
  exact ⟨a, b, s.slot_sp_sub_one.trans ha, s.slot_sp.trans hb, he⟩

/-- Settles O17: SWAP faults on fewer than two values, and otherwise gives up both and pushes them
back in the other order. -/
theorem swapExchangesTheTopTwo : Obligations.SwapExchangesTheTopTwo :=
  ⟨⟨rfl, fun _ => rfl⟩, fun _ => execSwap_short_of_sp, fun _ => execSwap_exchanges_top_two⟩

end Sys2Proof.Machine
end

section
/-!
Faults (R207, R208). A step that ends FAULTED latches one record and keeps the rest of the state; and
the fixed order of the checks in `faultDue` is the order in which the machine meets them: the decoder's
two faults first, then what `heightFault` says of the decoded instruction.
-/
namespace Sys2Proof.Machine

open Sys2Proof.Safety

/-! ### Taking a fault -/

/-- Settles O23: of the three things a step of a run in progress can do, only taking a fault ends
FAULTED; the halt step ends HALTED, and an instruction that completes leaves the run in progress. -/
theorem faultStepChangesNothingElse : Obligations.FaultStepChangesNothingElse := by
  intro s t hen hle h hfaulted
  rw [step_enabled hen] at h
  rcases runningStep_cases s with ⟨r, he, hr⟩ | ⟨-, v, -, he⟩ | ⟨i, -, -, st, -, he⟩ <;>
    obtain rfl := Host.Outcome.next.inj (he.symm.trans h)
  · have hpos : r.position = s.pc := hr hle
    exact ⟨r, rfl, hpos, rfl, rfl, congrArg (fun p => some (BitVec.ofNat 32 p)) hpos⟩
  · cases hfaulted
  · have hrun : s.status = .faulted := hfaulted
    rw [hen.2] at hrun
    cases hrun

/-! ### The conditions of R208 on the height -/

theorem State.sp_lt_iff {s : State} {n : Int} : s.sp < n ↔ (s.height : Int) ≤ n := by
  rw [s.sp_eq]
  omega

theorem State.sp_lt_zero_iff {s : State} : s.sp < 0 ↔ s.height < 1 := by
  rw [s.sp_eq]
  omega

theorem State.sp_lt_one_iff {s : State} : s.sp < 1 ↔ s.height < 2 := by
  rw [s.sp_eq]
  omega

theorem State.cap_le_sp_add_one_iff {s : State} : (s.cap : Int) ≤ s.sp + 1 ↔ s.cap ≤ s.height := by
  rw [s.sp_eq]
  omega

/-! ### The fault due, by what stands at the program counter -/

theorem faultDue_at_end {s : State} (hend : s.len ≤ s.pc) :
    faultDue s = if s.height < 1 then some (.stackUnderflow s.len) else none := by
  have hnone : s.code[s.pc]? = none := List.getElem?_eq_none hend
  simp only [faultDue, hnone, State.sp_lt_zero_iff]

theorem faultDue_illegal {s : State} {w : Word} (hw : s.code[s.pc]? = some w)
    (hill : w.toInt < 0 ∨ 6 < w.toInt) : faultDue s = some (.illegalInstruction w s.pc) := by
  simp only [faultDue, hw, if_pos hill]

theorem faultDue_truncated {s : State} {w : Word} (hw : s.code[s.pc]? = some w)
    (hop : w = 0 ∨ w = 1) (himm : s.code[s.pc + 1]? = none) :
    faultDue s = some (.truncatedInstruction w s.pc) := by
  have hend : s.len ≤ s.pc + 1 := List.getElem?_eq_none_iff.mp himm
  rcases hop with rfl | rfl <;> simp [faultDue, hw, hend]

theorem faultDue_const {s : State} {c : Word} (hw : s.code[s.pc]? = some 0)
    (himm : s.code[s.pc + 1]? = some c) :
    faultDue s = heightFault s.cap (.const c) s.height s.pc := by
  have hlen : ¬ s.len ≤ s.pc + 1 := Nat.not_le.mpr (List.getElem?_eq_some_iff.mp himm).1
  simp [faultDue, hw, hlen, heightFault, State.cap_le_sp_add_one_iff]

theorem faultDue_var {s : State} {n : Word} (hw : s.code[s.pc]? = some 1)
    (himm : s.code[s.pc + 1]? = some n) :
    faultDue s = heightFault s.cap (.var n) s.height s.pc := by
  have hlen : ¬ s.len ≤ s.pc + 1 := Nat.not_le.mpr (List.getElem?_eq_some_iff.mp himm).1
  simp [faultDue, hw, himm, hlen, heightFault, State.sp_lt_iff, State.cap_le_sp_add_one_iff]

/-- ADD, SUB, MUL and SWAP have only the two values to check that they read. -/
theorem faultDue_two_operands {s : State} {w : Word} (hw : s.code[s.pc]? = some w)
    (hop : w = 2 ∨ w = 3 ∨ w = 4 ∨ w = 6) :
    faultDue s = if s.height < 2 then some (.stackUnderflow s.pc) else none := by
  rcases hop with rfl | rfl | rfl | rfl <;> simp [faultDue, hw, State.sp_lt_one_iff]

theorem faultDue_pop {s : State} (hw : s.code[s.pc]? = some 5) :
    faultDue s = if s.height < 1 then some (.stackUnderflow s.pc) else none := by
  simp [faultDue, hw, State.sp_lt_zero_iff]

/-! ### The step takes the fault due -/

/-- R208 for one state: the step takes the fault that is due, and none when none is. -/
def TakesFaultDue (s : State) : Prop :=
  (∀ r, faultDue s = some r → step s = .next (s.raise r)) ∧
  (faultDue s = none → ∃ t, step s = .next t ∧ t.status ≠ .faulted)

theorem takesFaultDue_of_fault {s : State} {r : FaultRecord} (hdue : faultDue s = some r)
    (hstep : step s = .next (s.raise r)) : TakesFaultDue s := by
  rw [TakesFaultDue, hdue]
  exact ⟨fun _ hr => Option.some.inj hr ▸ hstep, nofun⟩

theorem takesFaultDue_of_no_fault {s t : State} (hdue : faultDue s = none)
    (hstep : step s = .next t) (ht : t.status ≠ .faulted) : TakesFaultDue s := by
  rw [TakesFaultDue, hdue]
  exact ⟨nofun, fun _ => ⟨t, hstep, ht⟩⟩

theorem takesFaultDue_at_end {s : State} (hen : Enabled s) (hend : s.len ≤ s.pc) :
    TakesFaultDue s := by
  have hstep : step s = haltStep s := step_at_end hen hend
  have hdue := faultDue_at_end hend
  rcases haltStep_cases s with ⟨hempty, he⟩ | ⟨hlive, v, -, he⟩
  · rw [if_pos (by omega)] at hdue
    exact takesFaultDue_of_fault hdue (hstep.trans he)
  · rw [if_neg (by omega)] at hdue
    exact takesFaultDue_of_no_fault hdue (hstep.trans he) nofun

theorem takesFaultDue_instr {s : State} {w : Word} (i : Instr) (hen : Enabled s)
    (hw : s.code[s.pc]? = some w) (hdec : decode w s.code[s.pc + 1]? = .instr i)
    (hdue : faultDue s = heightFault s.cap i s.height s.pc) : TakesFaultDue s := by
  have hstep : step s = exec i s := step_of_decode_instr hen hw hdec
  rcases exec_cases i s with ⟨r, hf, he⟩ | ⟨hf, st, -, he⟩
  · exact takesFaultDue_of_fault (hdue.trans hf) (hstep.trans he)
  · exact takesFaultDue_of_no_fault (hdue.trans hf) (hstep.trans he) (by simp [hen.2])

/-- CONST and VAR: the missing operand word is met before the checks of the instruction. -/
theorem takesFaultDue_immediate {s : State} {w : Word} (mk : Word → Instr) (hen : Enabled s)
    (hw : s.code[s.pc]? = some w) (hop : w = 0 ∨ w = 1)
    (hdec : ∀ after, decode w after = decodeImmediate mk w after)
    (hdue : ∀ c, s.code[s.pc + 1]? = some c →
      faultDue s = heightFault s.cap (mk c) s.height s.pc) : TakesFaultDue s := by
  rcases himm : s.code[s.pc + 1]? with _ | c
  · have htrunc : decode w s.code[s.pc + 1]? = .truncated w := by rw [hdec, himm]; rfl
    exact takesFaultDue_of_fault (faultDue_truncated hw hop himm)
      (step_of_decode_truncated hen hw htrunc)
  · have hinstr : decode w s.code[s.pc + 1]? = .instr (mk c) := by rw [hdec, himm]; rfl
    exact takesFaultDue_instr (mk c) hen hw hinstr (hdue c himm)

/-- Settles O24, rung by rung: the end of the stream, the illegal opcode words, and each of the seven
opcodes with its checks. -/
theorem firstFaultInTheFixedOrderIsRaised : Obligations.FirstFaultInTheFixedOrderIsRaised := by
  intro s hen
  change TakesFaultDue s
  rcases hw : s.code[s.pc]? with _ | w
  · exact takesFaultDue_at_end hen (List.getElem?_eq_none_iff.mp hw)
  by_cases hill : w.toInt < 0 ∨ 6 < w.toInt
  · exact takesFaultDue_of_fault (faultDue_illegal hw hill) (step_illegal_opcode hen hw hill)
  have hlegal : w = 0 ∨ w = 1 ∨ w = 2 ∨ w = 3 ∨ w = 4 ∨ w = 5 ∨ w = 6 :=
    opcode_iff_toInt_range.mpr (by omega)
  rcases hlegal with rfl | rfl | rfl | rfl | rfl | rfl | rfl
  · exact takesFaultDue_immediate .const hen hw (.inl rfl) (fun _ => rfl) fun _ => faultDue_const hw
  · exact takesFaultDue_immediate .var hen hw (.inr rfl) (fun _ => rfl) fun _ => faultDue_var hw
  · exact takesFaultDue_instr .add hen hw rfl (faultDue_two_operands hw (by decide))
  · exact takesFaultDue_instr .sub hen hw rfl (faultDue_two_operands hw (by decide))
  · exact takesFaultDue_instr .mul hen hw rfl (faultDue_two_operands hw (by decide))
  · exact takesFaultDue_instr .pop hen hw rfl (faultDue_pop hw)
  · exact takesFaultDue_instr .swap hen hw rfl (faultDue_two_operands hw (by decide))

end Sys2Proof.Machine
end

section
/-!
The one-pass check (R247) and the run, step by step. `checkRest` is what the check finds from a state
on, from its height and the words left alone. A step that ends the run ends it as `checkRest` says, and
a step that goes on leaves `checkRest` as it is.
-/
namespace Sys2Proof

/-- The table of operand words and the decoder agree on every instruction that decodes (R85). -/
theorem operandWords_eq_some_one_iff_of_decode {w : Word} {after : Option Word} {i : Instr}
    (h : decode w after = .instr i) : operandWords w = some 1 ↔ i.length = 2 := by
  rcases decode_instr_length h with ⟨hop, hlen⟩ | ⟨hop, hlen⟩
  · have hw : w = 0 ∨ w = 1 := hop.imp BitVec.eq_of_toInt_eq BitVec.eq_of_toInt_eq
    simp only [operandWords, if_pos hw, hlen]
  · have hw : ¬(w = 0 ∨ w = 1) := by
      rintro (rfl | rfl) <;> simp at hop
    simp only [operandWords, if_neg hw, hlen]
    split <;> simp

end Sys2Proof

namespace Sys2Proof.Safety

open Sys2Proof.Machine

/-! ### The check, by what the decoder finds -/

/-- A fault found at an opcode word ends the pass. -/
theorem checkFrom_cons_fault {cap h p : Nat} {w : Word} {ws : List Word} {r : FaultRecord}
    (hone : checkOne cap w ws.head? h p = .inl r) : checkFrom cap (w :: ws) h p = some r := by
  cases ws with
  | nil =>
    rw [List.head?_nil] at hone
    simp only [checkFrom, hone]
  | cons v rest =>
    rw [List.head?_cons] at hone
    simp only [checkFrom, hone]

/-- Past an instruction whose needs are met, the pass goes on behind its words. -/
theorem checkFrom_cons_instr {cap h p : Nat} {w : Word} {ws : List Word} {i : Instr}
    (hdec : decode w ws.head? = .instr i) (hf : heightFault cap i h p = none) :
    checkFrom cap (w :: ws) h p =
      checkFrom cap ((w :: ws).drop i.length) (heightAfter i h) (p + i.length) := by
  have hone : checkOne cap w ws.head? h p = .inr (heightAfter i h) := by
    simp only [checkOne, hdec, hf]
  have hop : operandWords w = some 1 ↔ i.length = 2 := operandWords_eq_some_one_iff_of_decode hdec
  have hlen : i.length = 2 ∨ i.length = 1 := (decode_instr_length hdec).imp And.right And.right
  cases ws with
  | nil =>
    have hinside : 0 + i.length ≤ [w].length := decodeAt_length_le (congrArg some hdec)
    have h1 : i.length = 1 := by
      rw [List.length_singleton] at hinside
      omega
    rw [List.head?_nil] at hone
    simp [checkFrom, hone, h1]
  | cons v rest =>
    rw [List.head?_cons] at hone
    rcases hlen with h2 | h1
    · simp [checkFrom, hone, hop, h2]
    · simp [checkFrom, hone, hop, h1]

/-! ### The check from a position of a stream on -/

theorem drop_eq_cons_of_decodeAt {code : Memory} {p : Nat} {d : Decoded}
    (h : decodeAt code p = some d) :
    ∃ w, code.drop p = w :: code.drop (p + 1) ∧ decode w (code.drop (p + 1)).head? = d := by
  obtain ⟨w, hw, hd⟩ := exists_opcode_of_decodeAt h
  obtain ⟨hp, rfl⟩ := List.getElem?_eq_some_iff.mp hw
  exact ⟨_, List.drop_eq_getElem_cons hp, by rwa [List.head?_drop]⟩

/-- Whatever the decoder finds at `p`, if that is a fault of the pass, the pass ends with it. -/
theorem checkFrom_drop_fault {cap h p : Nat} {code : Memory} {d : Decoded} {r : FaultRecord}
    (hdec : decodeAt code p = some d)
    (hone : ∀ w after, decode w after = d → checkOne cap w after h p = .inl r) :
    checkFrom cap (code.drop p) h p = some r := by
  obtain ⟨w, hdrop, hd⟩ := drop_eq_cons_of_decodeAt hdec
  rw [hdrop]
  exact checkFrom_cons_fault (hone w _ hd)

theorem checkFrom_drop_instr {cap h p : Nat} {code : Memory} {i : Instr}
    (hdec : decodeAt code p = some (.instr i)) (hf : heightFault cap i h p = none) :
    checkFrom cap (code.drop p) h p =
      checkFrom cap (code.drop (p + i.length)) (heightAfter i h) (p + i.length) := by
  obtain ⟨w, hdrop, hd⟩ := drop_eq_cons_of_decodeAt hdec
  rw [hdrop, checkFrom_cons_instr hd hf, ← hdrop, List.drop_drop]

end Sys2Proof.Safety

namespace Sys2Proof.Machine

open Sys2Proof.Safety

/-! ### What the check says of an outcome -/

/-- What the check found is the outcome of the run: nothing for a value, else the fault (R247). -/
def Foretells (found : Option FaultRecord) (o : RunOutcome) : Prop :=
  (found = none ↔ ∃ v, o = .value v) ∧ ∀ r, found = some r ↔ o = .failure r

theorem foretells_value (v : Word) : Foretells none (.value v) := by
  simp [Foretells]

theorem foretells_failure (r : FaultRecord) : Foretells (some r) (.failure r) := by
  simp [Foretells]

/-! ### The check keeps pace with the run -/

/-- What the check of R247 finds in the words left, from the height of the stack. -/
def checkRest (s : State) : Option FaultRecord :=
  checkFrom s.cap (s.code.drop s.pc) s.height s.pc

theorem checkRest_at_end {s : State} (hend : s.len ≤ s.pc) :
    checkRest s = checkEnd s.height s.pc := by
  have hdrop : s.code.drop s.pc = [] := List.drop_eq_nil_of_le hend
  rw [checkRest, hdrop, checkFrom]

/-- What a step to `t` does to what the check says: if the run ends in `t`, it was foretold; if it goes
on, the rest of the check is as before. -/
def KeepsPace (s t : State) : Prop :=
  (t.status ≠ .running ∧ Foretells (checkRest s) t.outcome) ∨
    (t.status = .running ∧ checkRest t = checkRest s)

theorem keepsPace_raise {s : State} {r : FaultRecord} (h : checkRest s = some r) :
    KeepsPace s (s.raise r) :=
  .inl ⟨nofun, h ▸ foretells_failure r⟩

theorem haltStep_keepsPace {s t : State} (hpc : s.pc = s.len) (h : haltStep s = .next t) :
    KeepsPace s t := by
  have hrest : checkRest s = checkEnd s.height s.len := hpc ▸ checkRest_at_end hpc.ge
  rcases haltStep_cases s with ⟨hempty, he⟩ | ⟨hlive, v, -, he⟩ <;>
    obtain rfl := Host.Outcome.next.inj (he.symm.trans h)
  · exact keepsPace_raise (hrest.trans (if_pos hempty))
  · have hnone : checkRest s = none := hrest.trans (if_neg (by omega))
    exact .inl ⟨nofun, hnone ▸ foretells_value v⟩

theorem exec_keepsPace {s t : State} {i : Instr} (hrun : s.status = .running)
    (hdec : decodeAt s.code s.pc = some (.instr i)) (h : exec i s = .next t) : KeepsPace s t := by
  rcases exec_cases i s with ⟨r, hf, he⟩ | ⟨hf, st, hst, he⟩ <;>
    obtain rfl := Host.Outcome.next.inj (he.symm.trans h)
  · exact keepsPace_raise (checkFrom_drop_fault hdec fun _ _ hd => by simp only [checkOne, hd, hf])
  · refine .inr ⟨hrun, ?_⟩
    rw [checkRest, checkRest, checkFrom_drop_instr hdec hf, ← hst]
    rfl

/-- The check and the machine look at the same words: the case split is on what the decoder finds. -/
theorem step_keepsPace {s t : State} (hen : Enabled s) (hle : s.pc ≤ s.len) (h : step s = .next t) :
    KeepsPace s t := by
  rw [step_enabled hen, runningStep] at h
  split at h
  next hdec => exact haltStep_keepsPace (Nat.le_antisymm hle (decodeAt_eq_none_iff.mp hdec)) h
  next w hdec =>
    obtain rfl := Host.Outcome.next.inj h
    exact keepsPace_raise (checkFrom_drop_fault hdec fun _ _ hd => by simp only [checkOne, hd])
  next w hdec =>
    obtain rfl := Host.Outcome.next.inj h
    exact keepsPace_raise (checkFrom_drop_fault hdec fun _ _ hd => by simp only [checkOne, hd])
  next i hdec => exact exec_keepsPace hen.2 hdec h

/-! ### The check of a whole run -/

theorem runFor_foretold {k : Nat} {s t : State} (hen : Enabled s) (hle : s.pc ≤ s.len)
    (h : runFor k s = .next t) (hend : t.status ≠ .running) :
    Foretells (checkRest s) t.outcome := by
  induction k generalizing s with
  | zero =>
    obtain rfl := Host.Outcome.next.inj h
    exact absurd hen.2 hend
  | succ k ih =>
    obtain ⟨u, hstep, hnext⟩ := step_ends_or_advances hen
    rw [runFor_succ_of_step hstep] at h
    rcases step_keepsPace hen hle hstep, hnext with
      ⟨⟨hended, hfore⟩ | ⟨hrun, hrest⟩, ⟨hs, hended'⟩ | ⟨henu, -, -, hleu⟩⟩
    · rw [runFor_ended hs hended] at h
      exact Host.Outcome.next.inj h ▸ hfore
    · exact absurd henu.2 hended
    · exact absurd hrun hended'
    · exact hrest ▸ ih henu hleu h

theorem execute_foretold (cap : Nat) (code : Memory) :
    Foretells (check cap code) (execute cap code) := by
  have hen : Enabled (State.invocation cap code) := ⟨rfl, rfl⟩
  have hle : (State.invocation cap code).pc ≤ (State.invocation cap code).len := Nat.zero_le _
  obtain ⟨t, hrun, hend⟩ : ∃ t, runFor (code.length + 1) (State.invocation cap code) = .next t ∧
      t.status ≠ .running := runFor_ends hen (Nat.sub_le _ _)
  rw [execute, hrun]
  exact runFor_foretold hen hle hrun hend

/-- Settles O40: at reset `checkRest` is the check of the whole stream, and the run keeps pace with it
to its end. The bounds of the contract are not needed. -/
theorem onePassCheckPredictsEveryRun : Obligations.OnePassCheckPredictsEveryRun :=
  fun cap code _ => execute_foretold cap code

end Sys2Proof.Machine
end

section
/-!
Encoding (R82, R85, R90, R91). The one fact that ties the decoder to the encoder is that an instruction
decodes exactly where its words stand first (`decode_eq_instr_iff`); decoding at a position and reading
a whole stream follow from it.
-/
namespace Sys2Proof

/-! ### One instruction -/

theorem encode_length (i : Instr) : (encode i).length = i.length := by
  cases i <;> rfl

theorem wellFormedWords_encode (i : Instr) : wellFormedWords (encode i) = true := by
  cases i <;> rfl

theorem decode_of_encode_prefix {w : Word} {ws : List Word} {i : Instr} (h : encode i <+: w :: ws) :
    decode w ws.head? = .instr i := by
  obtain ⟨rest, hrest⟩ := h
  cases i <;> cases hrest <;> rfl

theorem decodeImmediate_eq_instr {mk : Word → Instr} {w : Word} {ws : List Word} {i : Instr}
    (h : decodeImmediate mk w ws.head? = .instr i) : ∃ c rest, ws = c :: rest ∧ i = mk c := by
  cases ws with
  | nil => cases h
  | cons c rest => exact ⟨c, rest, rfl, (Decoded.instr.inj h).symm⟩

theorem encode_prefix_of_decode {w : Word} {ws : List Word} {i : Instr}
    (h : decode w ws.head? = .instr i) : encode i <+: w :: ws := by
  have hlegal : w = 0 ∨ w = 1 ∨ w = 2 ∨ w = 3 ∨ w = 4 ∨ w = 5 ∨ w = 6 := by
    by_contra hill
    rw [decode_eq_illegal_iff.mpr hill] at h
    cases h
  rcases hlegal with rfl | rfl | rfl | rfl | rfl | rfl | rfl
  · obtain ⟨c, rest, rfl, rfl⟩ := decodeImmediate_eq_instr (mk := .const) h
    exact ⟨rest, rfl⟩
  · obtain ⟨n, rest, rfl, rfl⟩ := decodeImmediate_eq_instr (mk := .var) h
    exact ⟨rest, rfl⟩
  all_goals
    cases h
    exact ⟨ws, rfl⟩

theorem decode_eq_instr_iff {w : Word} {ws : List Word} {i : Instr} :
    decode w ws.head? = .instr i ↔ encode i <+: w :: ws :=
  ⟨encode_prefix_of_decode, decode_of_encode_prefix⟩

/-! ### At a position of a stream -/

theorem encode_ne_nil (i : Instr) : encode i ≠ [] := by
  cases i <;> nofun

theorem decodeAt_eq_head?_drop (code : List Word) (p : Nat) :
    decodeAt code p = (code.drop p).head?.map (decode · (code.drop p).tail.head?) := by
  rw [List.head?_drop, List.tail_drop, List.head?_drop, decodeAt]
  cases code[p]? <;> rfl

theorem decodeAt_eq_instr_iff {code : List Word} {p : Nat} {i : Instr} :
    decodeAt code p = some (.instr i) ↔ encode i <+: code.drop p := by
  rw [decodeAt_eq_head?_drop]
  cases code.drop p with
  | nil => simp [encode_ne_nil]
  | cons w ws => simp [decode_eq_instr_iff]

/-- Settles O30: behind the words before it, an instruction's words stand first. -/
theorem decodeInvertsEncode : Obligations.DecodeInvertsEncode := by
  intro i before after _
  refine ⟨decodeAt_eq_instr_iff.mpr ?_, encode_length i, wellFormedWords_encode i⟩
  rw [List.append_assoc, List.drop_left]
  exact List.prefix_append _ _

/-- The table of operand words leaves no sequence without an instruction. -/
theorem exists_encode_of_wellFormedWords {ws : List Word} (h : wellFormedWords ws = true) :
    ∃ i, encode i = ws := by
  rcases ws with _ | ⟨w, operands⟩
  · cases h
  have hop : operandWords w = some operands.length := beq_iff_eq.mp h
  simp only [operandWords] at hop
  split at hop
  next hw =>
    obtain ⟨c, rfl⟩ := List.length_eq_one_iff.mp (Option.some.inj hop).symm
    rcases hw with rfl | rfl
    · exact ⟨.const c, rfl⟩
    · exact ⟨.var c, rfl⟩
  split at hop
  next hw =>
    obtain rfl := List.length_eq_zero_iff.mp (Option.some.inj hop).symm
    rcases hw with rfl | rfl | rfl | rfl | rfl
    · exact ⟨.add, rfl⟩
    · exact ⟨.sub, rfl⟩
    · exact ⟨.mul, rfl⟩
    · exact ⟨.pop, rfl⟩
    · exact ⟨.swap, rfl⟩
  next => cases hop

/-- Settles O31: the words that stand first where an instruction decodes are its own. -/
theorem encodeInvertsDecode : Obligations.EncodeInvertsDecode := by
  refine ⟨fun code p i h => ?_, fun _ => exists_encode_of_wellFormedWords⟩
  rw [← encode_length]
  exact (List.prefix_iff_eq_take.mp (decodeAt_eq_instr_iff.mp h)).symm

/-- Settles O29, by running the decoder on each word. -/
theorem writtenOutWordsDecode : Obligations.WrittenOutWordsDecode := by
  unfold Obligations.WrittenOutWordsDecode
  decide

/-! ### A whole stream -/

theorem disassemble_nil : disassemble [] = some [] := by
  rw [disassemble]

theorem prepend_instr (i : Instr) (read : Option (List Instr)) :
    (Decoded.instr i).prepend read = read.map (i :: ·) := by
  cases read <;> rfl

/-- Where an instruction decodes, its words are read and the reading goes on behind them. -/
theorem disassemble_cons_instr {w : Word} {ws : List Word} {i : Instr}
    (h : decode w ws.head? = .instr i) :
    disassemble (w :: ws) = (disassemble ((w :: ws).drop i.length)).map (i :: ·) := by
  have hop : operandWords w = some 1 ↔ i.length = 2 := operandWords_eq_some_one_iff_of_decode h
  have hlen : i.length = 2 ∨ i.length = 1 := (decode_instr_length h).imp And.right And.right
  have hinside : i.length ≤ (w :: ws).length :=
    encode_length i ▸ (encode_prefix_of_decode h).length_le
  cases ws with
  | nil =>
    have h1 : i.length = 1 := Nat.le_antisymm hinside i.length_pos
    rw [List.head?_nil] at h
    simp [disassemble, h, prepend_instr, h1]
  | cons v rest =>
    rw [List.head?_cons] at h
    rcases hlen with h2 | h1
    · simp [disassemble, h, prepend_instr, hop, h2]
    · simp [disassemble, h, prepend_instr, hop, h1]

/-- Where no instruction decodes, nothing is read. -/
theorem disassemble_cons_of_not_instr {w : Word} {ws : List Word}
    (h : ∀ i, decode w ws.head? ≠ .instr i) : disassemble (w :: ws) = none := by
  have prepend_none : ∀ read, (decode w ws.head?).prepend read = none := by
    intro read
    cases hd : decode w ws.head? with
    | instr i => exact absurd hd (h i)
    | truncated _ | illegal _ => rfl
  cases ws with
  | nil =>
    rw [disassemble]
    exact prepend_none _
  | cons v rest =>
    rw [disassemble]
    split
    · exact prepend_none _
    · exact prepend_none _

theorem disassemble_encode_append (i : Instr) (rest : List Word) :
    disassemble (encode i ++ rest) = (disassemble rest).map (i :: ·) := by
  obtain ⟨w, operands, henc⟩ := List.exists_cons_of_ne_nil (encode_ne_nil i)
  have hfirst : encode i <+: w :: (operands ++ rest) := ⟨rest, by rw [henc, List.cons_append]⟩
  have hrest : (w :: (operands ++ rest)).drop i.length = rest := by
    rw [← List.cons_append, ← henc, ← encode_length, List.drop_left]
  rw [henc, List.cons_append, disassemble_cons_instr (decode_of_encode_prefix hfirst), hrest]

theorem disassemble_assemble (is : List Instr) : disassemble (assemble is) = some is := by
  induction is with
  | nil => exact disassemble_nil
  | cons i is ih =>
    have hcons : assemble (i :: is) = encode i ++ assemble is := List.flatMap_cons
    rw [hcons, disassemble_encode_append, ih, Option.map_some]

/-- A stream that reads back as anything is empty, or starts with the words of an instruction. -/
theorem eq_nil_or_encode_append_of_disassemble {ws : List Word} {is : List Instr}
    (h : disassemble ws = some is) : ws = [] ∨ ∃ i rest, ws = encode i ++ rest := by
  rcases ws with _ | ⟨w, ws⟩
  · exact .inl rfl
  by_cases hd : ∃ i, decode w ws.head? = .instr i
  · obtain ⟨i, hi⟩ := hd
    obtain ⟨rest, hrest⟩ := encode_prefix_of_decode hi
    exact .inr ⟨i, rest, hrest.symm⟩
  · rw [disassemble_cons_of_not_instr (not_exists.mp hd)] at h
    cases h

theorem assemble_of_disassemble {ws : List Word} {is : List Instr} (h : disassemble ws = some is) :
    assemble is = ws := by
  induction is generalizing ws with
  | nil =>
    rcases eq_nil_or_encode_append_of_disassemble h with rfl | ⟨i, rest, rfl⟩
    · rfl
    · simp [disassemble_encode_append] at h
  | cons j is ih =>
    rcases eq_nil_or_encode_append_of_disassemble h with rfl | ⟨i, rest, rfl⟩
    · simp [disassemble_nil] at h
    · have hread : disassemble rest = some is ∧ i = j := by
        simpa [disassemble_encode_append] using h
      obtain ⟨hrest, rfl⟩ := hread
      rw [← ih hrest, assemble, List.flatMap_cons, assemble]

/-- Settles O32, both ways by induction over the list of instructions. -/
theorem disassembleInvertsAssemble : Obligations.DisassembleInvertsAssemble :=
  ⟨disassemble_assemble, fun _ _ => assemble_of_disassemble⟩

end Sys2Proof
end

section
/-!
Reset and the cycle (R37, R110, R241): what a step is by what `start` and `status` say, and what the
registers that no instruction writes hold after it.
-/
namespace Sys2Proof.Machine

open Sys2Proof.Safety

/-! ### Reset -/

/-- Settles O1: `State.reset` is the invocation of the default capacity and the empty stream. -/
theorem resetStateMeetsInvariant : Obligations.ResetStateMeetsInvariant := by
  have hdefault : InContract Config.defaultCap [] := by
    refine ⟨?_, ?_, ?_⟩ <;> decide
  exact ⟨State.reset_eq_invocation ▸ stepInvariant_invocation hdefault,
    fun _ _ => stepInvariant_invocation⟩

theorem step_assertStart {s : State} {code : Memory} (h : Memory.wf Config.maxLen code) :
    step (s.assertStart code) = .next (State.invocation s.cap code) :=
  (step_start rfl).trans (resetStep_wf h)

/-- Settles O5: the reset comes first, and refuses the stream. -/
theorem tooLongStreamIsRefused : Obligations.TooLongStreamIsRefused :=
  fun _ _ hs hlong => (step_start hs).trans (resetStep_long hlong)

theorem enabled_invocation (cap : Nat) (code : Memory) : Enabled (State.invocation cap code) :=
  ⟨rfl, rfl⟩

theorem slot_invocation (cap : Nat) (code : Memory) (j : Int) :
    (State.invocation cap code).slot j = none := by
  have hsp : (State.invocation cap code).sp = -1 := rfl
  rw [State.slot_eq_none_iff, hsp]
  omega

/-! ### A step by what the decoder finds -/

theorem step_of_decodeAt_instr {s : State} {i : Instr} (hen : Enabled s)
    (h : decodeAt s.code s.pc = some (.instr i)) : step s = exec i s := by
  rw [step_enabled hen, runningStep, h]

theorem step_of_decodeAt_illegal {s : State} {w : Word} (hen : Enabled s)
    (h : decodeAt s.code s.pc = some (.illegal w)) :
    step s = .next (s.raise (.illegalInstruction w s.pc)) :=
  (step_enabled hen).trans (runningStep_illegal h)

theorem step_of_decodeAt_truncated {s : State} {w : Word} (hen : Enabled s)
    (h : decodeAt s.code s.pc = some (.truncated w)) :
    step s = .next (s.raise (.truncatedInstruction w s.pc)) := by
  rw [step_enabled hen, runningStep, h]
  rfl

/-- Settles O6: with no reset pending, a RUNNING machine fetches, decodes and dispatches. -/
theorem stepRunsTheDecodedInstruction : Obligations.StepRunsTheDecodedInstruction :=
  fun _ _ => step_of_decodeAt_instr

/-- Settles O3: the step is the reset, to the state of R37 with the stream bound, which is enabled and
stands at position 0. -/
theorem startTakesTheResetState : Obligations.StartTakesTheResetState := by
  intro s code hwf
  have hen : Enabled (State.invocation s.cap code) := enabled_invocation s.cap code
  refine ⟨State.invocation s.cap code, step_assertStart hwf, rfl, rfl, rfl, rfl,
    slot_invocation s.cap code, rfl, rfl, rfl, fun i => step_of_decodeAt_instr hen,
    fun w => step_of_decodeAt_illegal hen, fun w => step_of_decodeAt_truncated hen, ?_⟩
  rintro rfl
  exact step_at_end hen le_rfl

/-- Settles O10: no step is enabled. -/
theorem endedRunKeepsItsState : Obligations.EndedRunKeepsItsState :=
  fun _ hend hs => step_idle hs hend

/-! ### Into RUNNING and out of an ended run -/

/-- Only a reset changes the status of an ended run (R39 (f), R241). -/
theorem start_ne_none_of_leaves_ended {s t : State} (h : step s = .next t)
    (hend : s.status ≠ .running) (hne : t.status ≠ s.status) : s.start ≠ none :=
  fun hs => hne (step_keeps_ended_status h hend hs)

/-- Resets with one stream of two cores of one capacity have the same outcome, refused or not. -/
theorem step_assertStart_congr {s s' : State} (code : Memory) (hcap : s.cap = s'.cap) :
    step (s.assertStart code) = step (s'.assertStart code) := by
  have hs : ∀ u : State, step (u.assertStart code) = resetStep code (u.assertStart code) :=
    fun _ => step_start rfl
  rcases Nat.lt_or_ge Config.maxLen code.length with hlong | hwf
  · rw [hs, hs, resetStep_long hlong, resetStep_long hlong]
  · rw [step_assertStart hwf, step_assertStart hwf, hcap]

/-- Settles O4: a reset reads nothing of the state but the capacity, and without one an ended run
keeps its status. -/
theorem resetIsTheOnlyWayOutAndForgetsAll : Obligations.ResetIsTheOnlyWayOutAndForgetsAll := by
  refine ⟨fun s code hwf => ⟨_, step_assertStart hwf, rfl, rfl⟩,
    fun _ _ code => step_assertStart_congr code, fun s t h hrun hend => ?_,
    fun _ _ => start_ne_none_of_leaves_ended⟩
  exact start_ne_none_of_leaves_ended h hend fun heq => hend (heq ▸ hrun)

/-! ### Every step answers -/

theorem exec_answers (i : Instr) (s : State) :
    ∃ t, exec i s = .next t ∧ (t.status = s.status ∨ t.status = .faulted) := by
  rcases exec_cases i s with ⟨r, -, he⟩ | ⟨-, st, -, he⟩
  · exact ⟨_, he, .inr rfl⟩
  · exact ⟨_, he, .inl rfl⟩

theorem step_answers {s : State} (hs : s.start = none) : ∃ t, step s = .next t := by
  by_cases hrun : s.status = .running
  · obtain ⟨t, h, -⟩ := step_ends_or_advances ⟨hs, hrun⟩
    exact ⟨t, h⟩
  · exact ⟨s, step_idle hs hrun⟩

/-- Settles O25: without a reset nothing refuses, and an instruction completes or takes a fault. -/
theorem stepAlwaysAnswersANextState : Obligations.StepAlwaysAnswersANextState :=
  ⟨fun _ => step_answers, exec_answers⟩

/-! ### The registers that no instruction writes -/

theorem exec_keeps_inputs_and_result {i : Instr} {s t : State} (h : exec i s = .next t) :
    t.code = s.code ∧ t.cap = s.cap ∧ t.start = s.start ∧ t.result = s.result := by
  rcases exec_cases i s with ⟨r, -, he⟩ | ⟨-, st, -, he⟩ <;>
    obtain rfl := Host.Outcome.next.inj (he.symm.trans h) <;>
    exact ⟨rfl, rfl, rfl, rfl⟩

theorem step_keeps_inputs {s t : State} (hs : s.start = none) (h : step s = .next t) :
    t.code = s.code ∧ t.cap = s.cap ∧ t.start = none := by
  rcases step_cases h with ⟨code, hcode, -⟩ | ⟨-, -, rfl⟩ | ⟨-, hrun⟩
  · simp [hs] at hcode
  · exact ⟨rfl, rfl, hs⟩
  · rcases runningStep_cases s with ⟨r, he, -⟩ | ⟨-, v, -, he⟩ | ⟨i, -, -, st, -, he⟩ <;>
      obtain rfl := Host.Outcome.next.inj (he.symm.trans hrun) <;>
      exact ⟨rfl, rfl, hs⟩

/-- A step of a run in progress is the halt step, with the top slot as its result, or it keeps
`result` and does not end HALTED. -/
theorem runningStep_result {s t : State} (hrun : s.status = .running)
    (h : runningStep s = .next t) :
    (s.len ≤ s.pc ∧ t.status = .halted ∧ s.slot s.sp = some t.result) ∨
      (t.status ≠ .halted ∧ t.result = s.result) := by
  rcases runningStep_cases s with ⟨r, he, -⟩ | ⟨hend, v, hv, he⟩ | ⟨i, -, -, st, -, he⟩ <;>
    obtain rfl := Host.Outcome.next.inj (he.symm.trans h)
  · exact .inr ⟨nofun, rfl⟩
  · exact .inl ⟨hend, rfl, hv⟩
  · exact .inr ⟨by simp [hrun], rfl⟩

/-- Settles O22: of the three things a step of a run in progress can do, only the halt step writes
`result`, and none writes the inputs. -/
theorem onlyTheHaltStepWritesTheResult : Obligations.OnlyTheHaltStepWritesTheResult := by
  refine ⟨fun _ _ _ => exec_keeps_inputs_and_result, fun s t hs h => ?_⟩
  obtain ⟨hcode, hcap, hstart⟩ := step_keeps_inputs hs h
  refine ⟨hcode, hcap, hstart, ?_⟩
  by_cases hrun : s.status = .running
  · rw [step_enabled ⟨hs, hrun⟩] at h
    rcases runningStep_result hrun h with ⟨hend, hhalted, hv⟩ | ⟨hne, hkept⟩
    · exact ⟨fun _ _ => hv, fun _ => ⟨hrun, hend, hhalted⟩⟩
    · exact ⟨fun hhalted => absurd hhalted hne, fun hwrote => absurd hkept hwrote⟩
  · obtain rfl : s = t := Host.Outcome.next.inj ((step_idle hs hrun).symm.trans h)
    exact ⟨fun _ hrun' => absurd hrun' hrun, fun hwrote => absurd rfl hwrote⟩

/-! ### An instruction placed by its bits -/

/-- The words patched into a stream stand where they were put, whatever the stream's length. -/
theorem patch_getElem? {code : Memory} {p k : Nat} {ws : List Word} (hk : k < ws.length) :
    (patch code p ws)[p + k]? = ws[k]? := by
  have hbefore : (code.take p ++ List.replicate (p - code.length) 0).length = p := by
    rw [List.length_append, List.length_take, List.length_replicate]
    omega
  rw [patch, List.getElem?_append_left (by rw [List.length_append, hbefore]; omega),
    List.getElem?_append_right (by omega), hbefore, Nat.add_sub_cancel_left]

theorem decode_of_decodeTableWord {nbits w : Nat} {i : Instr}
    (h : decodeTableWord nbits w = some i) :
    decode (tableWord nbits w 0) (some (tableWord nbits w 1)) = .instr i := by
  rw [decodeTableWord] at h
  split at h
  next hd => exact hd.trans (congrArg Decoded.instr (Option.some.inj h))
  next => cases h
  next => cases h

theorem decodeAt_withFetchWord (s : State) (nbits w : Nat) :
    decodeAt (s.withFetchWord nbits w).code (s.withFetchWord nbits w).pc =
      some (decode (tableWord nbits w 0) (some (tableWord nbits w 1))) := by
  have hfirst : (s.withFetchWord nbits w).code[s.pc]? = some (tableWord nbits w 0) :=
    patch_getElem? (k := 0) Nat.zero_lt_two
  have hsecond : (s.withFetchWord nbits w).code[s.pc + 1]? = some (tableWord nbits w 1) :=
    patch_getElem? (k := 1) Nat.one_lt_two
  exact (decodeAt_of_getElem? hfirst).trans (by rw [hsecond])

/-- Settles O7: the placed state is enabled, and the two words stand at the program counter. -/
theorem placedInstructionRunsNext : Obligations.PlacedInstructionRunsNext := by
  intro s nbits w i h
  have hdec := decodeAt_withFetchWord s nbits w
  rw [decode_of_decodeTableWord h] at hdec
  exact step_of_decodeAt_instr ⟨rfl, rfl⟩ hdec

end Sys2Proof.Machine
end

section
/-!
A larger capacity (95_test_vectors.md section 4, item 10). The run with the larger capacity goes through
the same states, but for `cap`, as long as the run with the smaller one takes no fault: the push alone
looks at the capacity, and a free slot stays free when there are more.
-/
namespace Sys2Proof.Machine

open Sys2Proof.Safety

/-- The state on a core of capacity `c`. -/
def State.withCap (c : Nat) (s : State) : State := { s with cap := c }

@[simp] theorem State.withCap_cap (c : Nat) (s : State) : (s.withCap c).cap = c := rfl
@[simp] theorem State.withCap_code (c : Nat) (s : State) : (s.withCap c).code = s.code := rfl
@[simp] theorem State.withCap_stack (c : Nat) (s : State) : (s.withCap c).stack = s.stack := rfl
@[simp] theorem State.withCap_pc (c : Nat) (s : State) : (s.withCap c).pc = s.pc := rfl
@[simp] theorem State.withCap_status (c : Nat) (s : State) : (s.withCap c).status = s.status := rfl
@[simp] theorem State.withCap_result (c : Nat) (s : State) : (s.withCap c).result = s.result := rfl
@[simp] theorem State.withCap_fault (c : Nat) (s : State) : (s.withCap c).fault = s.fault := rfl
@[simp] theorem State.withCap_start (c : Nat) (s : State) : (s.withCap c).start = s.start := rfl
@[simp] theorem State.withCap_height (c : Nat) (s : State) : (s.withCap c).height = s.height := rfl

/-- The outcome on a core of capacity `c`. -/
def outcomeWithCap (c : Nat) : StepOutcome → StepOutcome
  | .next s => .next (s.withCap c)
  | .fault r => .fault r
  | .refused r => .refused r

/-! ### What does not look at the capacity -/

theorem takeTwo_withCap (c : Nat) (s : State) :
    (s.withCap c).takeTwo = s.takeTwo.map fun (a, b, t) => (a, b, t.withCap c) := by
  rw [State.takeTwo, State.takeTwo, State.withCap_stack]
  rcases s.stack with _ | ⟨b, _ | ⟨a, rest⟩⟩ <;> rfl

theorem dropOne_withCap (c : Nat) (s : State) :
    (s.withCap c).dropOne = s.dropOne.map (State.withCap c) := by
  rw [State.dropOne, State.dropOne, State.withCap_stack]
  cases s.stack <;> rfl

theorem binary_withCap (op : Word → Word → Word) (c : Nat) (s : State) :
    binary op (s.withCap c) = outcomeWithCap c (binary op s) := by
  rw [binary, binary, takeTwo_withCap]
  cases s.takeTwo <;> rfl

theorem execPop_withCap (c : Nat) (s : State) :
    execPop (s.withCap c) = outcomeWithCap c (execPop s) := by
  rw [execPop, execPop, dropOne_withCap]
  cases s.dropOne <;> rfl

theorem execSwap_withCap (c : Nat) (s : State) :
    execSwap (s.withCap c) = outcomeWithCap c (execSwap s) := by
  rw [execSwap, execSwap, takeTwo_withCap]
  cases s.takeTwo <;> rfl

theorem haltStep_withCap (c : Nat) (s : State) :
    haltStep (s.withCap c) = outcomeWithCap c (haltStep s) := by
  rw [haltStep, haltStep, State.atDepth, State.atDepth, State.withCap_stack]
  cases s.stack[0]? <;> rfl

/-! ### The push, and every instruction that takes no fault -/

theorem pushValue_withCap {v : Word} {c : Nat} {s : State} (hle : s.cap ≤ c)
    (hroom : s.height < s.cap) : pushValue v (s.withCap c) = outcomeWithCap c (pushValue v s) := by
  have hroom' : (s.withCap c).height < (s.withCap c).cap := hroom.trans_le hle
  rw [pushValue_room hroom, pushValue_room hroom']
  rfl

theorem exec_withCap {i : Instr} {c : Nat} {s : State} (hle : s.cap ≤ c)
    (hf : heightFault s.cap i s.height s.pc = none) :
    exec i (s.withCap c) = outcomeWithCap c (exec i s) := by
  cases i with
  | const v =>
    have hroom : s.height < s.cap := by simpa [heightFault] using hf
    exact pushValue_withCap hle hroom
  | var n =>
    simp only [heightFault] at hf
    split_ifs at hf with hneg hdeep hfull
    obtain ⟨v, hv, he⟩ := execVar_live (n := n) (s := s) (by omega) (by omega)
    have hpush : execVar n (s.withCap c) = pushValue v (s.withCap c) := by
      have hv' : (s.withCap c).atDepth n.toInt.toNat = some v := hv
      rw [execVar, if_neg hneg, hv']
    calc execVar n (s.withCap c)
        = pushValue v (s.withCap c) := hpush
      _ = outcomeWithCap c (pushValue v s) := pushValue_withCap hle (Nat.lt_of_not_le hfull)
      _ = outcomeWithCap c (execVar n s) := by rw [he]
  | add => exact binary_withCap aluAdd c s
  | sub => exact binary_withCap aluSub c s
  | mul => exact binary_withCap aluMul c s
  | pop => exact execPop_withCap c s
  | swap => exact execSwap_withCap c s

/-! ### A step, and a run, that takes no fault -/

theorem runningStep_withCap {c : Nat} {s t : State} (hle : s.cap ≤ c)
    (h : runningStep s = .next t) (ht : t.status ≠ .faulted) :
    runningStep (s.withCap c) = .next (t.withCap c) := by
  have no_fault : ∀ r, runningStep s ≠ .next (s.raise r) := by
    intro r he
    obtain rfl := Host.Outcome.next.inj (he.symm.trans h)
    exact ht rfl
  rw [runningStep, State.withCap_code, State.withCap_pc]
  rw [runningStep] at h no_fault
  cases hdec : decodeAt s.code s.pc with
  | none =>
    rw [hdec] at h
    exact (haltStep_withCap c s).trans (congrArg (outcomeWithCap c) h)
  | some d =>
    rw [hdec] at h no_fault
    cases d with
    | illegal w => exact absurd rfl (no_fault _)
    | truncated w => exact absurd rfl (no_fault _)
    | instr i =>
      rcases exec_cases i s with ⟨r, -, he⟩ | ⟨hf, -⟩
      · exact absurd he (no_fault r)
      · exact (exec_withCap hle hf).trans (congrArg (outcomeWithCap c) h)

theorem step_withCap {c : Nat} {s t : State} (hs : s.start = none) (hle : s.cap ≤ c)
    (h : step s = .next t) (ht : t.status ≠ .faulted) :
    step (s.withCap c) = .next (t.withCap c) := by
  by_cases hrun : s.status = .running
  · have hen : Enabled (s.withCap c) := ⟨hs, hrun⟩
    rw [step_enabled ⟨hs, hrun⟩] at h
    exact (step_enabled hen).trans (runningStep_withCap hle h ht)
  · obtain rfl : s = t := Host.Outcome.next.inj ((step_idle hs hrun).symm.trans h)
    exact step_idle hs hrun

/-- A fault on the way would stay to the end, so no step of a run that ends without one takes one. -/
theorem runFor_withCap {k c : Nat} {s t : State} (hs : s.start = none) (hle : s.cap ≤ c)
    (h : runFor k s = .next t) (ht : t.status ≠ .faulted) :
    runFor k (s.withCap c) = .next (t.withCap c) := by
  induction k generalizing s with
  | zero =>
    obtain rfl := Host.Outcome.next.inj h
    rfl
  | succ k ih =>
    obtain ⟨u, hstep, hrest⟩ := runFor_succ_eq_next h
    obtain ⟨-, hcap, hstart⟩ := step_keeps_inputs hs hstep
    have hu : u.status ≠ .faulted := by
      intro hfaulted
      rw [runFor_ended hstart (by simp [hfaulted])] at hrest
      exact ht (Host.Outcome.next.inj hrest ▸ hfaulted)
    rw [runFor_succ_of_step (step_withCap hs hle hstep hu)]
    exact ih hstart (hcap ▸ hle) hrest

/-! ### A whole run -/

theorem outcome_eq_value_iff {s : State} {v : Word} :
    s.outcome = .value v ↔ s.status = .halted ∧ s.result = v := by
  rw [State.outcome]
  rcases s.status with _ | _ | _ <;> rcases s.fault with _ | r <;> simp

theorem execute_eq_value_iff {cap : Nat} {code : Memory} {v : Word} :
    execute cap code = .value v ↔
      ∃ t, runFor (code.length + 1) (State.invocation cap code) = .next t ∧
        t.status = .halted ∧ t.result = v := by
  rw [execute]
  cases runFor (code.length + 1) (State.invocation cap code) with
  | next t => simp [outcome_eq_value_iff]
  | fault r => nomatch r
  | refused r => simp

/-- Settles O41: the run with the larger capacity ends in the same state but for `cap`. -/
theorem largerCapacityKeepsTheResult : Obligations.LargerCapacityKeepsTheResult := by
  intro cap cap' code v _ hle h
  obtain ⟨t, hrun, hhalted, hresult⟩ := execute_eq_value_iff.mp h
  have hrun' : runFor (code.length + 1) (State.invocation cap' code) = .next (t.withCap cap') :=
    runFor_withCap (s := State.invocation cap code) rfl hle hrun (by simp [hhalted])
  exact execute_eq_value_iff.mpr ⟨t.withCap cap', hrun', hhalted, hresult⟩

end Sys2Proof.Machine
end

section
/-!
Frames by the slots of the stack (R57, R163, R182): which slot each kind of instruction writes, and
that it leaves every other as it was. The height an instruction needs (R182) is the one with which it
takes no fault, so the frames hold wherever it completes.
-/
namespace Sys2Proof.Machine

open Sys2Proof.Safety

/-! ### Slots by their names -/

theorem State.pushIndex_eq (s : State) : s.pushIndex = s.height := by
  rw [pushIndex, s.sp_eq, sub_add_cancel]

theorem State.topIndex_eq (s : State) : s.topIndex = s.height - 1 := s.sp_eq

theorem State.secondIndex_eq (s : State) : s.secondIndex = s.height - 2 := by
  rw [secondIndex, s.sp_eq]
  omega

theorem State.lower_sp {n : Nat} {s : State} (h : n ≤ s.height) : (s.lower n).sp = s.sp - n := by
  rw [State.sp_eq, State.sp_eq, lower_height]
  omega

theorem State.put_sp (v : Word) (s : State) : (s.put v).sp = s.sp + 1 := by
  rw [State.sp_eq, State.sp_eq, put_height]
  omega

@[simp] theorem State.advance_sp (n : Nat) (s : State) : (s.advance n).sp = s.sp := rfl

/-- Giving up `n` values changes the slots that held them and no other. -/
theorem State.slot_lower_outside {n : Nat} {s : State} {j : Int} (h : j ≤ s.sp - n ∨ s.sp < j) :
    (s.lower n).slot j = s.slot j := by
  rw [slot_lower]
  split
  · rfl
  · exact (slot_eq_none_iff.mpr (.inr (by omega))).symm

/-- With two values given up, the next free slot is the one that held the lower of them. -/
theorem State.lower_two_pushIndex {s : State} (h : 2 ≤ s.height) :
    (s.lower 2).pushIndex = s.secondIndex := by
  rw [pushIndex, lower_sp h, secondIndex]
  omega

/-- With one more value put there, it is the one that held the upper of them. -/
theorem State.lower_two_put_pushIndex {s : State} (v : Word) (h : 2 ≤ s.height) :
    ((s.lower 2).put v).pushIndex = s.topIndex := by
  rw [pushIndex, put_sp, lower_sp h, topIndex]
  omega

theorem State.slot_lower_two {s : State} {j : Int} (hs : j ≠ s.secondIndex) (ht : j ≠ s.topIndex) :
    (s.lower 2).slot j = s.slot j := by
  rw [secondIndex] at hs
  rw [topIndex] at ht
  exact slot_lower_outside (by omega)

/-! ### CONST and VAR -/

theorem pushValue_frame {v : Word} {s : State} (h : s.height < s.cap) :
    ∃ t, pushValue v s = .next t ∧ SameButStackAndPc s t ∧ t.sp = s.sp + 1 ∧
      t.slot s.pushIndex = some v ∧ ∀ j, j ≠ s.pushIndex → t.slot j = s.slot j := by
  refine ⟨_, pushValue_room h, rfl, s.put_sp v, ?_, fun j hj => ?_⟩
  · rw [State.slot_advance, State.slot_put, if_pos rfl]
  · rw [State.slot_advance, State.slot_put, if_neg hj]

theorem execVar_frame {n : Word} {s : State} (h : needs s.cap (.var n) s.height) :
    ∃ t, execVar n s = .next t ∧ SameButStackAndPc s t ∧ t.sp = s.sp + 1 ∧
      t.slot s.pushIndex = s.slot (s.depthIndex n.toInt) ∧ (t.slot s.pushIndex).isSome ∧
      ∀ j, j ≠ s.pushIndex → t.slot j = s.slot j := by
  obtain ⟨hsign, hlive, hroom⟩ := h
  obtain ⟨v, hv, he⟩ := execVar_eq_pushValue_slot (n := n) (s := s) hsign
    (by rw [s.sp_eq]; omega)
  obtain ⟨t, hpush, hsame, hsp, hslot, hother⟩ := pushValue_frame (v := v) hroom
  exact ⟨t, he.trans hpush, hsame, hsp, hslot.trans hv.symm, by simp [hslot], hother⟩

/-- Settles O18: the frame of the push, whose value is the literal or the slot that VAR read. -/
theorem pushWritesOnlyTheNextFreeSlot : Obligations.PushWritesOnlyTheNextFreeSlot :=
  ⟨fun _ _ => pushValue_frame, fun _ _ => execVar_frame⟩

/-! ### ADD, SUB and MUL -/

/-- The three instructions of the ALU and their operations. -/
theorem exec_eq_binary_of_mem {i : Instr} {f : Word → Word → Word}
    (h : (i, f) ∈ [(Instr.add, aluAdd), (Instr.sub, aluSub), (Instr.mul, aluMul)]) (s : State) :
    exec i s = binary f s := by
  simp only [List.mem_cons, List.not_mem_nil, or_false, Prod.mk.injEq] at h
  rcases h with ⟨rfl, rfl⟩ | ⟨rfl, rfl⟩ | ⟨rfl, rfl⟩ <;> rfl

theorem binary_frame {op : Word → Word → Word} {s : State} (h : 2 ≤ s.height) :
    ∃ t a b, binary op s = .next t ∧ SameButStackAndPc s t ∧ t.sp = s.sp - 1 ∧
      s.slot s.secondIndex = some a ∧ s.slot s.topIndex = some b ∧
      t.slot s.secondIndex = some (op a b) ∧ t.slot s.topIndex = none ∧
      ∀ j, j ≠ s.secondIndex → j ≠ s.topIndex → t.slot j = s.slot j := by
  obtain ⟨a, b, ha, hb, he⟩ := binary_replaces_top_two (op := op) (s := s)
    (by rw [s.sp_eq]; omega)
  have hwrite : ∀ j, (((s.lower 2).put (op a b)).advance 1).slot j =
      if j = s.secondIndex then some (op a b) else (s.lower 2).slot j := by
    intro j
    rw [State.slot_advance, State.slot_put, State.lower_two_pushIndex h]
  have hsp : (((s.lower 2).put (op a b)).advance 1).sp = s.sp - 1 := by
    rw [State.advance_sp, State.put_sp, State.lower_sp h]
    omega
  refine ⟨_, a, b, he, rfl, hsp, ha, hb, ?_, ?_, fun j hj hj' => ?_⟩
  · rw [hwrite, if_pos rfl]
  · rw [State.slot_eq_none_iff, hsp, State.topIndex]
    omega
  · rw [hwrite, if_neg hj, State.slot_lower_two hj hj']

/-- Settles O19: the three are one rule with three operations. -/
theorem binaryWritesOnlyTheSecondFromTop : Obligations.BinaryWritesOnlyTheSecondFromTop := by
  intro i f hmem s h
  rw [exec_eq_binary_of_mem hmem]
  exact binary_frame h

/-! ### POP and SWAP -/

theorem execPop_frame {s : State} (h : 1 ≤ s.height) :
    ∃ t, execPop s = .next t ∧ SameButStackAndPc s t ∧ t.sp = s.sp - 1 ∧
      t.slot s.topIndex = none ∧ ∀ j, j ≠ s.topIndex → t.slot j = s.slot j := by
  have hsp : ((s.lower 1).advance 1).sp = s.sp - 1 := State.lower_sp h
  refine ⟨_, execPop_complete h, rfl, hsp, ?_, fun j hj => ?_⟩
  · rw [State.slot_eq_none_iff, hsp, State.topIndex]
    omega
  · rw [State.topIndex] at hj
    rw [State.slot_advance, State.slot_lower_outside (by omega)]

theorem execSwap_frame {s : State} (h : 2 ≤ s.height) :
    ∃ t, execSwap s = .next t ∧ SameButStackAndPc s t ∧ t.sp = s.sp ∧
      t.slot s.topIndex = s.slot s.secondIndex ∧ t.slot s.secondIndex = s.slot s.topIndex ∧
      ∀ j, j ≠ s.secondIndex → j ≠ s.topIndex → t.slot j = s.slot j := by
  obtain ⟨a, b, ha, hb, he⟩ := execSwap_exchanges_top_two (s := s) (by rw [s.sp_eq]; omega)
  have hwrite : ∀ j, ((((s.lower 2).put b).put a).advance 1).slot j =
      if j = s.topIndex then some a else if j = s.secondIndex then some b
      else (s.lower 2).slot j := by
    intro j
    rw [State.slot_advance, State.slot_put, State.slot_put, State.lower_two_pushIndex h,
      State.lower_two_put_pushIndex b h]
  have hsp : ((((s.lower 2).put b).put a).advance 1).sp = s.sp := by
    rw [State.advance_sp, State.put_sp, State.put_sp, State.lower_sp h]
    omega
  have hne : s.secondIndex ≠ s.topIndex := by
    rw [State.secondIndex, State.topIndex]
    omega
  refine ⟨_, he, rfl, hsp, ?_, ?_, fun j hj hj' => ?_⟩
  · rw [hwrite, if_pos rfl]
    exact ha.symm
  · rw [hwrite, if_neg hne, if_pos rfl]
    exact hb.symm
  · rw [hwrite, if_neg hj', if_neg hj, State.slot_lower_two hj hj']

/-- Settles O20: POP lowers the stack pointer and no more, SWAP writes back the two values it took. -/
theorem popWritesNothingAndSwapOnlyTheTopTwo : Obligations.PopWritesNothingAndSwapOnlyTheTopTwo :=
  ⟨fun _ => execPop_frame, fun _ => execSwap_frame⟩

/-! ### The table of R182 -/

/-- The needs of R182 are the heights with which no check of R208 fails. -/
theorem heightFault_eq_none_iff {cap h p : Nat} {i : Instr} :
    heightFault cap i h p = none ↔ needs cap i h := by
  cases i with
  | const c =>
    simp only [heightFault, needs, ite_eq_right_iff, reduceCtorEq, imp_false]
    omega
  | var n =>
    simp only [heightFault, needs]
    split_ifs <;> simp only [false_iff, true_iff] <;> omega
  | add | sub | mul | pop | swap =>
    simp only [heightFault, needs, ite_eq_right_iff, reduceCtorEq, imp_false, Nat.not_lt]

theorem height_add_stackEffect {cap h : Nat} {i : Instr} (hn : needs cap i h) :
    (heightAfter i h : Int) = h + stackEffect i := by
  have hnonneg : 0 ≤ (h : Int) + stackEffect i := by
    cases i <;> simp only [needs, stackEffect] at hn ⊢ <;> omega
  exact Int.toNat_of_nonneg hnonneg

/-- The slots outside the row's column "Slots written", from the frames above. -/
theorem exec_writes_only {i : Instr} {s : State} (hn : needs s.cap i s.height) :
    ∃ t, exec i s = .next t ∧
      ∀ j, j ≤ t.sp → j ∉ writes i s.height → t.slot j = s.slot j := by
  have two : ∀ op, 2 ≤ s.height → ∃ t, binary op s = .next t ∧
      ∀ j, j ≤ t.sp → j ∉ [(s.height : Int) - 2] → t.slot j = s.slot j := by
    intro op h
    obtain ⟨t, a, b, he, -, hsp, -, -, -, -, hother⟩ := binary_frame (op := op) h
    refine ⟨t, he, fun j hj hw => hother j ?_ ?_⟩
    · exact s.secondIndex_eq ▸ List.ne_of_not_mem_cons hw
    · rw [State.topIndex]
      omega
  cases i with
  | const c =>
    obtain ⟨t, he, -, -, -, hother⟩ := pushValue_frame (v := c) hn
    exact ⟨t, he, fun j _ hw => hother j (s.pushIndex_eq ▸ List.ne_of_not_mem_cons hw)⟩
  | var n =>
    obtain ⟨t, he, -, -, -, -, hother⟩ := execVar_frame hn
    exact ⟨t, he, fun j _ hw => hother j (s.pushIndex_eq ▸ List.ne_of_not_mem_cons hw)⟩
  | add => exact two aluAdd hn
  | sub => exact two aluSub hn
  | mul => exact two aluMul hn
  | pop =>
    obtain ⟨t, he, -, hsp, -, hother⟩ := execPop_frame hn
    refine ⟨t, he, fun j hj _ => hother j ?_⟩
    rw [State.topIndex]
    omega
  | swap =>
    obtain ⟨t, he, -, -, -, -, hother⟩ := execSwap_frame hn
    refine ⟨t, he, fun j _ hw => ?_⟩
    simp only [writes, List.mem_cons, List.not_mem_nil, or_false, not_or] at hw
    exact hother j (s.secondIndex_eq ▸ hw.2) (s.topIndex_eq ▸ hw.1)

theorem exec_completes_of_needs {i : Instr} {s : State} (hn : needs s.cap i s.height) :
    ∃ t, exec i s = .next t ∧ SameButStackAndPc s t ∧
      (t.height : Int) = s.height + stackEffect i ∧ t.pc = s.pc + i.length ∧
      ∀ j, j ≤ t.sp → j ∉ writes i s.height → t.slot j = s.slot j := by
  obtain ⟨t, ht, hslots⟩ := exec_writes_only hn
  rcases exec_cases i s with ⟨r, hf, -⟩ | ⟨-, st, hlen, he⟩
  · rw [heightFault_eq_none_iff.mpr hn] at hf
    cases hf
  · obtain rfl := Host.Outcome.next.inj (he.symm.trans ht)
    have hheight : (st.length : Int) = s.height + stackEffect i := by
      rw [hlen, height_add_stackEffect hn]
    exact ⟨_, ht, rfl, hheight, rfl, hslots⟩

theorem exec_faults_of_not_needs {i : Instr} {s : State} (hn : ¬ needs s.cap i s.height) :
    ∃ r : FaultRecord, r.position = s.pc ∧ exec i s = .next (s.raise r) := by
  rcases exec_cases i s with ⟨r, hf, he⟩ | ⟨hf, -⟩
  · exact ⟨r, heightFault_position hf, he⟩
  · exact absurd (heightFault_eq_none_iff.mp hf) hn

theorem step_at_end_by_height {s : State} (hen : Enabled s) (hend : s.len ≤ s.pc) :
    ∃ t, step s = .next t ∧ t.stack = s.stack ∧
      (t.status = .halted ↔ 1 ≤ s.height) ∧ (t.status = .faulted ↔ s.height = 0) := by
  rw [step_at_end hen hend]
  rcases haltStep_cases s with ⟨hempty, he⟩ | ⟨hlive, v, -, he⟩
  · exact ⟨_, he, rfl, ⟨nofun, fun hlive => by omega⟩, fun _ => hempty, fun _ => rfl⟩
  · exact ⟨_, he, rfl, ⟨fun _ => hlive, fun _ => rfl⟩, nofun, fun hempty => by omega⟩

/-- Settles O21: with its needs met an instruction takes no fault, and the frames say what it writes;
otherwise `heightFault` names the fault. -/
theorem heightsDecideCompletion : Obligations.HeightsDecideCompletion :=
  ⟨fun _ _ => exec_completes_of_needs, fun _ _ => exec_faults_of_not_needs,
    fun _ => step_at_end_by_height⟩

/-! ### Pairs that restore the stack -/

theorem execSwap_of_stack {s : State} {a b : Word} {rest : Memory} (h : s.stack = b :: a :: rest) :
    execSwap s = .next { s with stack := a :: b :: rest, pc := s.pc + 1 } := by
  have htake : s.takeTwo = some (a, b, { s with stack := rest }) := by
    rw [State.takeTwo, h, State.lower, h]
    rfl
  rw [execSwap, htake]
  rfl

theorem execSwap_twice {s : State} (h : 2 ≤ s.height) :
    ∃ t, execSwap s = .next t ∧ execSwap t = .next { s with pc := s.pc + 2 } := by
  obtain ⟨a, b, -, -, hstack, -⟩ := execSwap_complete h
  refine ⟨_, execSwap_of_stack hstack, ?_⟩
  rw [execSwap_of_stack rfl, ← hstack]

theorem execPop_of_pushed (v : Word) (s : State) :
    execPop ((s.put v).advance 2) = .next { s with pc := s.pc + 3 } := by
  have hheight : 1 ≤ ((s.put v).advance 2).height := Nat.le_add_left 1 s.height
  exact execPop_complete hheight

/-- Settles O38: the second SWAP finds the two values exchanged, and POP gives up the value pushed. -/
theorem swapTwiceAndPushPopRestoreTheStack : Obligations.SwapTwiceAndPushPopRestoreTheStack := by
  refine ⟨fun _ => execSwap_twice, fun s hlive hroom => ?_, fun s c hroom => ?_⟩
  · obtain ⟨v, -, he⟩ := execVar_live (n := 0) (s := s) le_rfl (Int.ofNat_lt.mpr hlive)
    exact ⟨_, he.trans (pushValue_room hroom), execPop_of_pushed v s⟩
  · exact ⟨_, pushValue_room hroom, execPop_of_pushed c s⟩

end Sys2Proof.Machine
end

section
/-!
The coded outputs and the registers at their widths (R21, R23, R30, R32, R33, R200): the contract keeps
every number below the range of its register.
-/
namespace Sys2Proof.Machine

open Sys2Proof.Safety

/-! ### The codes -/

theorem FaultRecord.kind_ne_zero (r : FaultRecord) : r.kind ≠ 0 := by
  cases r <;> simp [kind]

theorem State.faultKind_eq_zero_iff {s : State} : s.faultKind = 0 ↔ s.fault = none := by
  rw [faultKind]
  cases s.fault with
  | none => simp
  | some r => simpa using r.kind_ne_zero

theorem fault_eq_none_iff_of_invariant {s : State} (inv : StepInvariant s) :
    s.fault = none ↔ s.status ≠ .faulted := by
  refine ⟨fun hnone hfaulted => ?_, inv.no_fault⟩
  obtain ⟨r, hr, -⟩ := inv.faulted hfaulted
  simp [hnone] at hr

theorem statusOutput_codes (s : State) :
    (s.status = .running → s.statusOutput = 0#2) ∧ (s.status = .halted → s.statusOutput = 1#2) ∧
      (s.status = .faulted → s.statusOutput = 2#2) ∧ s.statusOutput ≠ 3#2 := by
  rw [State.statusOutput]
  cases s.status <;> decide

/-- Settles O26: no kind has the code 0, which is left to the state without a record. -/
theorem faultAndStatusCodesAreTheTables : Obligations.FaultAndStatusCodesAreTheTables :=
  ⟨fun _ _ => rfl, fun _ => rfl, fun _ => rfl, fun _ _ => rfl, fun _ _ => rfl,
    fun _ inv => State.faultKind_eq_zero_iff.trans (fault_eq_none_iff_of_invariant inv),
    statusOutput_codes⟩

/-! ### The widths -/

/-- A position of a stream in the contract, or its length, fits 32 bits (D10). -/
theorem toNat_ofNat_of_le_maxLen {n : Nat} (h : n ≤ Config.maxLen) :
    (BitVec.ofNat 32 n).toNat = n :=
  Nat.mod_eq_of_lt (h.trans_lt (by decide))

/-- A stack pointer below a capacity in the contract fits 32 signed bits (D11). -/
theorem toInt_ofInt_of_sp_range {z : Int} {cap : Nat} (hcap : cap ≤ Config.maxCap)
    (hz : -1 ≤ z ∧ z ≤ (cap : Int) - 1) : (BitVec.ofInt 32 z).toInt = z := by
  rw [Config.maxCap] at hcap
  have hwrap : (wrap32 z).toInt = (z + 2 ^ 31) % 2 ^ 32 - 2 ^ 31 := toInt_wrap32 z
  rw [wrap32] at hwrap
  omega

/-- Settles O28: the invariant bounds the program counter by the length of the stream and the stack
pointer by the capacity, and the contract bounds these two. -/
theorem registersFitTheirWidths : Obligations.RegistersFitTheirWidths := by
  intro s inv
  obtain ⟨hlen, -, hcap⟩ := inv.contract
  refine ⟨toNat_ofNat_of_le_maxLen (inv.pc_le.trans hlen),
    toInt_ofInt_of_sp_range hcap inv.sp_range, toNat_ofNat_of_le_maxLen hlen, fun hfaulted => ?_⟩
  obtain ⟨r, hr, hpos⟩ := inv.faulted hfaulted
  rw [State.faultPosition, hr, Option.map_some, hpos, State.pcRegister]

end Sys2Proof.Machine
end

section
/-!
Overflow and signedness (R162, R165, R167, R211). An exact sum or difference of two words leaves the
signed range by less than `2 ^ 32`, so the wrap takes `2 ^ 32` off or adds it, once.
-/
namespace Sys2Proof.Machine

/-! ### Bounds of the exact results -/

theorem word_signed_range (a : Word) : -2 ^ 31 ≤ a.toInt ∧ a.toInt ≤ 2 ^ 31 - 1 := by
  have hhigh : a.toInt < 2 ^ 31 := BitVec.toInt_lt
  exact ⟨BitVec.le_toInt a, by omega⟩

/-- The lowest product is that of the lowest and the largest word, the largest that of the lowest word
with itself. -/
theorem toInt_mul_toInt_range (a b : Word) :
    -(2 ^ 62 - 2 ^ 31) ≤ a.toInt * b.toInt ∧ a.toInt * b.toInt ≤ 2 ^ 62 := by
  obtain ⟨halow, hahigh⟩ := word_signed_range a
  obtain ⟨hblow, hbhigh⟩ := word_signed_range b
  constructor <;> nlinarith

/-- An integer less than `2 ^ 31` outside the signed range wraps by `2 ^ 32` once, or not at all. -/
theorem toInt_wrap32_exact_or_off_once {z : Int} (h : -2 ^ 32 ≤ z ∧ z ≤ 2 ^ 32 - 1) :
    ∃ k : Int, (k = 0 ∨ k = 2 ^ 32 ∨ k = -2 ^ 32) ∧ (wrap32 z).toInt = z + k := by
  refine ⟨(wrap32 z).toInt - z, ?_, by omega⟩
  rw [toInt_wrap32]
  omega

/-! ### Overflow is no error -/

/-- With `a` and `b` on top a binary operator completes, whatever they are (R211). -/
theorem binary_top_of_operands {op : Word → Word → Word} {s : State} {a b : Word}
    (ha : s.slot (s.sp - 1) = some a) (hb : s.slot s.sp = some b) :
    ∃ t, binary op s = .next t ∧ t.slot t.sp = some (op a b) ∧ t.status = s.status ∧
      t.fault = s.fault := by
  have hlive : ¬(s.sp - 1 < 0 ∨ s.sp < s.sp - 1) := by
    rw [← State.slot_eq_none_iff, ha]
    nofun
  have hheight : 2 ≤ s.height := by
    rw [s.sp_eq] at hlive
    omega
  obtain ⟨t, a', b', he, hsame, hsp, ha', hb', hslot, -⟩ := binary_frame (op := op) hheight
  obtain rfl : a' = a := Option.some.inj (ha'.symm.trans ha)
  obtain rfl : b' = b := Option.some.inj (hb'.symm.trans hb)
  refine ⟨t, he, hsp ▸ hslot, ?_, ?_⟩ <;> rw [hsame]

/-- Settles O35: the bounds of a sum and a difference are within what wraps once, and the rule of a
binary operator does not look at its operands. -/
theorem overflowWraps : Obligations.OverflowWraps := by
  intro a b
  obtain ⟨halow, hahigh⟩ := word_signed_range a
  obtain ⟨hblow, hbhigh⟩ := word_signed_range b
  refine ⟨⟨by omega, by omega⟩, ⟨by omega, by omega⟩,
    toInt_wrap32_exact_or_off_once ⟨by omega, by omega⟩,
    toInt_wrap32_exact_or_off_once ⟨by omega, by omega⟩, toInt_mul_toInt_range a b,
    toInt_wrap32_emod _, fun s ha hb i f hmem => ?_⟩
  rw [exec_eq_binary_of_mem hmem]
  exact binary_top_of_operands ha hb

/-! ### The unsigned reading -/

theorem ofNat_add_complement (a b : Word) :
    BitVec.ofNat 32 (a.toNat + (2 ^ 32 - b.toNat)) = a - b := by
  rw [BitVec.sub_def, Nat.add_comm]

/-- Settles O37: the operations are those of the ring of words, which the unsigned reading computes
too. -/
theorem aluBitsDoNotDependOnSignedness : Obligations.AluBitsDoNotDependOnSignedness := by
  intro a b
  rw [aluAdd_eq_add, aluMul_eq_mul, aluSub_eq_sub, ofNat_add_complement, BitVec.ofNat_add,
    BitVec.ofNat_mul, BitVec.ofNat_toNat, BitVec.ofNat_toNat, BitVec.setWidth_eq,
    BitVec.setWidth_eq]
  exact ⟨rfl, rfl, rfl⟩

end Sys2Proof.Machine
end
